-- ==== Sys2Proof/Word.lean ====
section
/-!
DEFINITION. The word types of MD5CE: the 32-bit port word, the 8-bit byte and the 64-bit counter (00_scope R10, R11).
`+`, `&&&`, `|||`, `^^^`, `~~~`, `<<<` and `>>>` of `BitVec` are R12's operators: addition modulo the width, the bitwise
operators, and the logical shifts.
-/

namespace Sys2Proof

/-- A 32-bit word of the command port, the response port or the running state (R10). -/
abbrev Word := BitVec 32

/-- One byte of a message or of the block buffer (R10, R21). -/
abbrev Byte := BitVec 8

/-- The 64-bit byte counter and the 64-bit bit count (R25, R172). -/
abbrev Count := BitVec 64

end Sys2Proof
end

