-- ==== Sys2Proof/Machine/Bits.lean ====
section
/-!
DEFINITION. The rotation and the byte-order primitives of 00_scope R12 and R13.
-/

namespace Sys2Proof.Machine

/-- `rotl32(x, s)`, the left rotation by `s` positions, 1 <= s <= 31 (R12). -/
def rotl32 (x : Word) (s : Nat) : Word :=
  (x <<< s) ||| (x >>> (32 - s))

/-- `le32(b0, b1, b2, b3)`: the first byte is the least significant (R13). -/
def le32 (b0 b1 b2 b3 : Byte) : Word :=
  b0.setWidth 32 ||| (b1.setWidth 32 <<< 8) ||| (b2.setWidth 32 <<< 16) ||| (b3.setWidth 32 <<< 24)

/-- `le32bytes(w)`, the inverse of `le32` (R13). -/
def le32bytes (w : Word) : List Byte :=
  [w.extractLsb' 0 8, w.extractLsb' 8 8, w.extractLsb' 16 8, w.extractLsb' 24 8]

/-- `le64bytes(v)`, least significant byte first, the low half first (R13, R54). -/
def le64bytes (v : Count) : List Byte :=
  le32bytes (v.extractLsb' 0 32) ++ le32bytes (v.extractLsb' 32 32)

end Sys2Proof.Machine
end

