-- ==== Sys2Proof/Config.lean ====
section
/-!
DEFINITION. What an implementation fixes (00_scope R10: the OPEN parameters), and the free values: what the spec leaves
unspecified while the machine goes on.
-/

namespace Sys2Proof

/-- The OPEN implementation parameters (R10; 93 I11, I12, I13). They are no state: no step changes them (R231). -/
structure Config where
  /-- NCTX, the number of context slots. -/
  nctx : Nat
  /-- RSP_DEPTH, the capacity of the response queue in words. -/
  rspDepth : Nat
  /-- The capacity of the command queue in words, the platform's (R237, I13). -/
  cqDepth : Nat
  deriving DecidableEq, Repr

/-- The ranges R10 gives: `1 <= NCTX <= 256` and `RSP_DEPTH >= 5`; a command queue that can hold a word. -/
abbrev Config.Valid (c : Config) : Prop :=
  1 ≤ c.nctx ∧ c.nctx ≤ 256 ∧ 5 ≤ c.rspDepth ∧ 1 ≤ c.cqDepth

/-- FREE VALUE (log entry 7). Byte `i` of the buffer of slot `c` after the buffer has become unspecified for the
`k`-th time (10_state R27; 41_context_and_feed R141: "its 64 bytes become unspecified"). Nothing constrains it. -/
opaque Config.staleByte : Nat → Nat → Nat → Byte

end Sys2Proof
end

