-- ==== Sys2Proof/Syntax.lean ====
section
/-!
DEFINITION. The commands of MD5CE, one constructor per row of spec/opcode_table.json (30_encoding R74).
-/

namespace Sys2Proof

/-- The four commands. `cid` is the slot index (R72) and `n` the byte count (R73); the payload words of a FEED or a
DIGEST are not part of the command word: they follow it on the command queue (R77). -/
inductive Instr where
  /-- INIT: create a fresh context in a slot (R140). -/
  | init (cid : Nat)
  /-- FEED: append a span of `n` bytes to a context (R143). -/
  | feed (cid n : Nat)
  /-- FINAL: finalize a context and return its digest (R178). -/
  | final (cid : Nat)
  /-- DIGEST: one-shot digest of a span of `n` bytes (R180). -/
  | digest (cid n : Nat)
  deriving DecidableEq, Repr

/-- The CID field of a command (R72). -/
def Instr.cid : Instr → Nat
  | .init cid => cid
  | .feed cid _ => cid
  | .final cid => cid
  | .digest cid _ => cid

/-- The N field of a command; reserved and zero for INIT and FINAL (R73). -/
def Instr.count : Instr → Nat
  | .init _ => 0
  | .feed _ n => n
  | .final _ => 0
  | .digest _ n => n

end Sys2Proof
end

