-- ==== Sys2Proof/WellFormed.lean ====
section
/-!
DEFINITION. Which commands can be written in a command word: the slot index fits CID's 8 bits (30_encoding R72) and the
byte count fits N's 16 bits (R73). A longer span is not legal with FEED or DIGEST (R83, 92 D7, 93 I14).
-/

namespace Sys2Proof

/-- MAXN, bytes per FEED or DIGEST command (00_scope R10). -/
def maxN : Nat := 65535

/-- The largest slot index CID can hold (R72: an unsigned 8-bit index). -/
def maxCid : Nat := 255

/-- A command the encoding admits. -/
def Instr.wellFormed : Instr → Bool
  | .init cid => decide (cid ≤ maxCid)
  | .feed cid n => decide (cid ≤ maxCid) && decide (n ≤ maxN)
  | .final cid => decide (cid ≤ maxCid)
  | .digest cid n => decide (cid ≤ maxCid) && decide (n ≤ maxN)

end Sys2Proof
end

