-- ==== Sys2Proof/Decode.lean ====
section
/-!
DEFINITION. Decoding of a command word, total and rejecting by name (30_encoding R71 to R76, R82), and after it the
encoder and the assembler (R77, R83, R84).
-/

namespace Sys2Proof

/-- The OP field, bits 31:24 (R71). -/
def opField (w : Word) : Byte := w.extractLsb' 24 8

/-- The CID field, bits 23:16 (R71). -/
def cidField (w : Word) : Byte := w.extractLsb' 16 8

/-- The N field, bits 15:0 (R71). -/
def nField (w : Word) : BitVec 16 := w.extractLsb' 0 16

/-- Why a command word is ILLEGAL (R82). Each makes the engine answer ERR_ILLEGAL (R204). -/
inductive Illegal where
  /-- OP is 0x00 or 0x05..0xFF. -/
  | reservedOpcode
  /-- INIT with N != 0. -/
  | initCount
  /-- FINAL with N != 0. -/
  | finalCount
  deriving DecidableEq, Repr

/-- The five kinds of R76. -/
inductive Decoded where
  | instr (i : Instr)
  | illegal (why : Illegal)
  deriving DecidableEq, Repr

/-- The OP values of the opcode map (R74). -/
def Instr.opcode : Instr → Byte
  | .init _ => 0x01
  | .feed _ _ => 0x02
  | .final _ => 0x03
  | .digest _ _ => 0x04

/-- Decoding of a command word taken while DS = WAIT_CMD (R76). -/
def decode (w : Word) : Decoded :=
  match (opField w).toNat with
  | 1 => if nField w = 0 then .instr (.init (cidField w).toNat) else .illegal .initCount
  | 2 => .instr (.feed (cidField w).toNat (nField w).toNat)
  | 3 => if nField w = 0 then .instr (.final (cidField w).toNat) else .illegal .finalCount
  | 4 => .instr (.digest (cidField w).toNat (nField w).toNat)
  | _ => .illegal .reservedOpcode

/-- `ceil(n/4)`, the number of payload words that carry `n` bytes (R76, R77). -/
def payloadWords (n : Nat) : Nat := (n + 3) / 4

/-- P, the number of payload words that follow a command word; it depends only on OP and N (R76). -/
def Instr.payload : Instr → Nat
  | .init _ => 0
  | .feed _ n => payloadWords n
  | .final _ => 0
  | .digest _ n => payloadWords n

/-- P of a decoded word: an ILLEGAL word takes no payload words (R76, R82). -/
def Decoded.payload : Decoded → Nat
  | .instr i => i.payload
  | .illegal _ => 0

/-- One row of the opcode map as match and mask (R75). -/
structure OpRow where
  mnemonic : String
  pattern : Word
  mask : Word
  deriving DecidableEq, Repr

/-- The four rows of R75, in its order. -/
def opcodeMap : List OpRow :=
  [⟨"INIT", 0x01000000, 0xFF00FFFF⟩, ⟨"FEED", 0x02000000, 0xFF000000⟩,
   ⟨"FINAL", 0x03000000, 0xFF00FFFF⟩, ⟨"DIGEST", 0x04000000, 0xFF000000⟩]

/-- "A decoder selects a command by `(word & mask) == match`" (R75). -/
def OpRow.selects (r : OpRow) (w : Word) : Bool := decide (w &&& r.mask = r.pattern)

/-- A command's mnemonic in the opcode map (R74). -/
def Instr.mnemonic : Instr → String
  | .init _ => "INIT"
  | .feed _ _ => "FEED"
  | .final _ => "FINAL"
  | .digest _ _ => "DIGEST"

/-- The command word of a well-formed command: OP, CID and N in the fields of R71. -/
def encode (i : Instr) : Word :=
  i.opcode ++ BitVec.ofNat 8 i.cid ++ BitVec.ofNat 16 i.count

/-- The payload words of a span: byte j in bits `8*(j mod 4)+7 : 8*(j mod 4)` of word `j div 4`, the ignored bytes of
the last word set to zero, as the assembler writes them (R77, R83). -/
def packWords : List Byte → List Word
  | [] => []
  | [a] => [Machine.le32 a 0 0 0]
  | [a, b] => [Machine.le32 a b 0 0]
  | [a, b, c] => [Machine.le32 a b c 0]
  | a :: b :: c :: d :: rest => Machine.le32 a b c d :: packWords rest

/-- `INIT <cid>` (R83). -/
def asmInit (cid : Nat) : List Word := [encode (.init cid)]

/-- `FEED <cid>, <bytes>` (R83). -/
def asmFeed (cid : Nat) (bytes : List Byte) : List Word :=
  encode (.feed cid bytes.length) :: packWords bytes

/-- `FINAL <cid>` (R83). -/
def asmFinal (cid : Nat) : List Word := [encode (.final cid)]

/-- `DIGEST <cid>, <bytes>` (R83). -/
def asmDigest (cid : Nat) (bytes : List Byte) : List Word :=
  encode (.digest cid bytes.length) :: packWords bytes

/-- The consecutive chunks of at most 65535 bytes that FEEDL feeds, cut with `fuel` to spare (R84). DESIGN CHOICE (log entry
16): every chunk but the last has the full 65535 bytes; R84 gives only the bound. -/
def chunksOf : Nat → List Byte → List (List Byte)
  | 0, _ => []
  | fuel + 1, bytes =>
    if bytes.length ≤ maxN then [bytes] else bytes.take maxN :: chunksOf fuel (bytes.drop maxN)

/-- The chunks of the pseudo-instruction FEEDL; an empty span is one empty chunk (R84). How long the
chunks are within R84's bound is the model's choice (log entry 16). -/
def feedlChunks (bytes : List Byte) : List (List Byte) :=
  chunksOf (bytes.length + 1) bytes

/-- `FEEDL <cid>, <bytes>`: one FEED per chunk, in order (R84). -/
def asmFeedl (cid : Nat) (bytes : List Byte) : List Word :=
  (feedlChunks bytes).flatMap (asmFeed cid)

/-- The command word of `nbits` bits `w`: a row of the opcode table is one 32-bit word (R70, R71). -/
def tableWord (nbits w : Nat) : Word := BitVec.ofNat 32 (w % 2 ^ nbits)

/-- What the decoder reads from an instruction whose bits are `w`, numbered as spec/opcode_table.json numbers them.
The payload words above `nbits` carry no bits of the instruction itself (R76, R77). -/
def decodeTableWord (nbits w : Nat) : Option Instr :=
  match decode (tableWord nbits w) with
  | .instr i => some i
  | .illegal _ => none

end Sys2Proof
end

