-- ==== Sys2Proof/Machine/Params.lean ====
section
/-!
DEFINITION. The implementation that State.reset presents: one choice of the OPEN parameters of 00_scope R10.
-/

namespace Sys2Proof.Machine

/-- DESIGN CHOICE (log entry 2, unsafe). R10 leaves NCTX, RSP_DEPTH and the command queue's capacity OPEN. NCTX = 256,
so that every CID names a slot (R72); RSP_DEPTH = 5, the least R10 allows; a command queue of 16385 words, the longest
command (R78). Statements quantify over the parameters a state holds; this choice is only `State.reset`'s. -/
def presentedConfig : Config := ⟨256, 5, 16385⟩

end Sys2Proof.Machine
end

