-- ==== Sys2Proof/Machine/State.lean ====
section
/-!
DEFINITION. The state of MD5CE as plain data (10_state R20 to R37), the reasons a step can stop, and the state after reset.
-/

namespace Sys2Proof.Machine

/-- The lifecycle phase of a slot (R22). -/
inductive Phase where
  /-- no context exists in the slot -/
  | idle
  /-- created by INIT; no byte fed yet -/
  | fresh
  /-- at least one byte fed since INIT -/
  | absorbing
  /-- FINAL has completed -/
  | finalized
  deriving DecidableEq, Repr

/-- The running state H[0..3] (R23). -/
structure HWords where
  h0 : Word
  h1 : Word
  h2 : Word
  h3 : Word
  deriving DecidableEq, Repr

/-- A context slot (R21). -/
structure Slot where
  /-- PH (R22). -/
  ph : Phase
  /-- H[0..3] (R23). -/
  h : HWords
  /-- CNT, the number of bytes absorbed, modulo 2^64 (R25); its low 6 bits are the occupancy OCC (R26). -/
  cnt : Count
  /-- BUF[0..63]; only its first OCC bytes are specified (R27). -/
  buf : Vector Byte 64
  /-- The MODEL'S OWN field (log entry 7): how many times the buffer has become unspecified, so that each time takes its
  own free bytes `Config.staleByte`. -/
  draws : Nat
  deriving DecidableEq, Repr

/-- The slot after reset (R37). DESIGN CHOICE for `draws` (log entry 7): 0. -/
def Slot.reset : Slot :=
  { ph := .idle, h := ⟨0, 0, 0, 0⟩, cnt := 0, buf := Vector.replicate 64 0, draws := 0 }

/-- The two commands that take payload words (R31: a FEED or DIGEST command word). -/
inductive PayloadOp where
  | feed
  | digest
  deriving DecidableEq, Repr

/-- The decoder state DS (R31). -/
inductive Decoder where
  /-- the engine waits for a command word -/
  | waitCmd
  /-- PAYLOAD(op, c, n, k): the `k` payload words taken so far are held here, oldest first (log entry 4) -/
  | payload (op : PayloadOp) (cid n : Nat) (taken : List Word)
  deriving DecidableEq, Repr

/-- A move of the host (70 R242; log entry 10). -/
inductive HostMove where
  /-- write one word on CQ -/
  | write (w : Word)
  /-- read the next response word from RQ -/
  | read
  /-- assert the reset input (R230) -/
  | assertReset
  /-- release the reset input (R232) -/
  | releaseReset
  /-- make no move: the engine may take a step before the host's next move -/
  | letEngine
  deriving DecidableEq, Repr

/-- The state of MD5CE and of its host. Plain data. -/
structure State where
  /-- The context slots; NCTX is their number (R20, R21; log entry 1). -/
  slots : List Slot
  /-- DS (R31). -/
  ds : Decoder
  /-- CQ, oldest word first (R32). -/
  cq : List Word
  /-- RQ, oldest word first (R32). -/
  rq : List Word
  /-- Response words of the command in progress that RQ has had no room for yet, in order (R14, R230; log entry 5). -/
  pend : List Word
  /-- RSP_DEPTH (R10; log entry 1). -/
  rspDepth : Nat
  /-- The capacity of CQ (R237; log entry 1). -/
  cqDepth : Nat
  /-- The reset input is asserted (R230, R232; log entry 11). -/
  rst : Bool
  /-- The host's moves to come, oldest first (log entry 10). -/
  host : List HostMove
  /-- The response words the host has read, oldest first (R241; log entry 10). -/
  got : List Word
  deriving DecidableEq, Repr

/-- NCTX (R10, R20). -/
def State.nctx (s : State) : Nat := s.slots.length

/-- The configuration a state carries; no step changes it (R20, R231). -/
def State.config (s : State) : Config := ⟨s.slots.length, s.rspDepth, s.cqDepth⟩

/-- Why a step stops. Each is a state in which the spec says that the engine HAS NO STEP and the host has no move it can
make; all four are safe (log entry 6): the model stops where the hardware holds. -/
inductive Fault where
  /-- Raised by `step` when DS = WAIT_CMD and CQ is empty (R14, R32). A run that ends here with RQ empty is quiescent
  (R241). Safe. -/
  | waitCommand
  /-- Raised by `step` when DS = PAYLOAD(...) and CQ is empty: stuck until more words arrive or reset (R236, R241). Safe. -/
  | waitPayload
  /-- Raised by `step` when RQ is full, whether or not a response word waits for room (R32, R237; 92 D23; 93 I12). Safe. -/
  | waitResponse
  /-- Raised by `step` while the reset input is asserted (R230, R232). Safe. -/
  | waitReset
  deriving DecidableEq, Repr

/-- Why a step refuses. No meaning of this model refuses. -/
inductive Refusal where
  /-- Raised by `exec` for an instruction that has no meaning yet; no arm does so now. Safe. -/
  | notModelled (mnemonic : String)
  deriving DecidableEq, Repr

/-- The state after reset of an implementation with the parameters `c` (R37). The host's two fields start empty (log
entry 10). -/
def State.resetWith (c : Config) : State :=
  { slots := List.replicate c.nctx Slot.reset
    ds := .waitCmd
    cq := []
    rq := []
    pend := []
    rspDepth := c.rspDepth
    cqDepth := c.cqDepth
    rst := false
    host := []
    got := [] }

/-- The machine right after reset (R37, R230), for the parameters of `presentedConfig` (log entry 2). -/
def State.reset : State := State.resetWith presentedConfig

end Sys2Proof.Machine
end

