-- ==== Sys2Proof/Machine/Compress.lean ====
section
/-!
DEFINITION. The compression function and its constant tables (40_compression R100 to R113; 10_state R24, R29, R30).
The values are the spec's own tables, which it took from the published MD5 definition (93 K1 to K7; log entry 14).
-/

namespace Sys2Proof.Machine

/-- IV, the initial value written to H by INIT (R24). -/
def iv : HWords := ⟨0x67452301, 0xEFCDAB89, 0x98BADCFE, 0x10325476⟩

/-- Mixing function of phase 0 (R100). -/
def f0 (x y z : Word) : Word := (x &&& y) ||| (~~~x &&& z)

/-- Mixing function of phase 1 (R101). -/
def f1 (x y z : Word) : Word := (x &&& z) ||| (y &&& ~~~z)

/-- Mixing function of phase 2 (R102). -/
def f2 (x y z : Word) : Word := x ^^^ y ^^^ z

/-- Mixing function of phase 3 (R103). -/
def f3 (x y z : Word) : Word := y ^^^ (x ||| ~~~z)

/-- `rphase(i) = i div 16` (R104). -/
def rphase (i : Nat) : Nat := i / 16

/-- The mixing function of round i, `f_rphase(i)` (R104). -/
def mix (i : Nat) (x y z : Word) : Word :=
  match rphase i with
  | 0 => f0 x y z
  | 1 => f1 x y z
  | 2 => f2 x y z
  | _ => f3 x y z

/-- The 64 round constants K[0..63] (R105, the table of R107). -/
def kTab : List Word :=
  [0xD76AA478, 0xE8C7B756, 0x242070DB, 0xC1BDCEEE, 0xF57C0FAF, 0x4787C62A, 0xA8304613, 0xFD469501] ++
  [0x698098D8, 0x8B44F7AF, 0xFFFF5BB1, 0x895CD7BE, 0x6B901122, 0xFD987193, 0xA679438E, 0x49B40821] ++
  [0xF61E2562, 0xC040B340, 0x265E5A51, 0xE9B6C7AA, 0xD62F105D, 0x02441453, 0xD8A1E681, 0xE7D3FBC8] ++
  [0x21E1CDE6, 0xC33707D6, 0xF4D50D87, 0x455A14ED, 0xA9E3E905, 0xFCEFA3F8, 0x676F02D9, 0x8D2A4C8A] ++
  [0xFFFA3942, 0x8771F681, 0x6D9D6122, 0xFDE5380C, 0xA4BEEA44, 0x4BDECFA9, 0xF6BB4B60, 0xBEBFBC70] ++
  [0x289B7EC6, 0xEAA127FA, 0xD4EF3085, 0x04881D05, 0xD9D4D039, 0xE6DB99E5, 0x1FA27CF8, 0xC4AC5665] ++
  [0xF4292244, 0x432AFF97, 0xAB9423A7, 0xFC93A039, 0x655B59C3, 0x8F0CCC92, 0xFFEFF47D, 0x85845DD1] ++
  [0x6FA87E4F, 0xFE2CE6E0, 0xA3014314, 0x4E0811A1, 0xF7537E82, 0xBD3AF235, 0x2AD7D2BB, 0xEB86D391]

/-- The four rotation amounts of each phase, by `i mod 4` (R106). -/
def sTab (i : Nat) : Nat :=
  (match rphase i with
    | 0 => [7, 12, 17, 22]
    | 1 => [5, 9, 14, 20]
    | 2 => [4, 11, 16, 23]
    | _ => [6, 10, 15, 21]).getD (i % 4) 0

/-- The message-word index schedule IDX[i] (R107). -/
def idxTab (i : Nat) : Nat :=
  match rphase i with
  | 0 => i % 16
  | 1 => (1 + 5 * (i % 16)) % 16
  | 2 => (5 + 3 * (i % 16)) % 16
  | _ => (7 * (i % 16)) % 16

/-- The working registers a, b, c, d, which exist only inside a compression (10_state R29; log entry 9). -/
structure Regs where
  a : Word
  b : Word
  c : Word
  d : Word
  deriving DecidableEq, Repr

/-- Byte i of a block, for any index; blocks are read below 64 only. -/
def blockByte (blk : Vector Byte 64) (i : Nat) : Byte := blk.toList.getD i 0

/-- The message words `X[j] = le32(B[4j], B[4j+1], B[4j+2], B[4j+3])`, j = 0..15 (20_memory R52, R110). -/
def msgWords (blk : Vector Byte 64) : List Word :=
  (List.range 16).map fun j =>
    le32 (blockByte blk (4 * j)) (blockByte blk (4 * j + 1)) (blockByte blk (4 * j + 2)) (blockByte blk (4 * j + 3))

/-- Round i of the pipeline over the message words `x` (R108). -/
def roundStep (x : List Word) (r : Regs) (i : Nat) : Regs :=
  { a := r.d
    b := r.b + rotl32 (r.a + mix i r.b r.c r.d + kTab.getD i 0 + x.getD (idxTab i) 0) (sTab i)
    c := r.b
    d := r.c }

/-- The first `n` rounds, in order i = 0, 1, ... (R111). -/
def rounds (x : List Word) (n : Nat) (r : Regs) : Regs :=
  (List.range n).foldl (roundStep x) r

/-- `Compress(H, B)` (R112). It is unfolded only where a proof asks for it by name. -/
@[irreducible] def compress (h : HWords) (blk : Vector Byte 64) : HWords :=
  let r := rounds (msgWords blk) 64 ⟨h.h0, h.h1, h.h2, h.h3⟩
  ⟨h.h0 + r.a, h.h1 + r.b, h.h2 + r.c, h.h3 + r.d⟩

end Sys2Proof.Machine
end

