-- ==== Sys2Proof/Machine/Flags.lean ====
section
/-!
DEFINITION. What takes the place of flags: the status word and its fields (30_encoding R80; 60_exceptions R200). MD5CE has
no condition flags and no status register (10_state R35).
-/

namespace Sys2Proof.Machine

/-- The error codes (R200). -/
inductive Err where
  | ok
  | finalized
  | noContext
  | badCid
  | illegal
  deriving DecidableEq, Repr

/-- The ERR field's values (R200). -/
def errCode : Err → Byte
  | .ok => 0x00
  | .finalized => 0x01
  | .noContext => 0x02
  | .badCid => 0x03
  | .illegal => 0x04

/-- The 2-bit encoding of PH (R22). -/
def phaseCode : Phase → BitVec 2
  | .idle => 0
  | .fresh => 1
  | .absorbing => 2
  | .finalized => 3

/-- OCC, the buffer occupancy `CNT[5:0]` (R26). -/
def occ (sl : Slot) : BitVec 6 := sl.cnt.extractLsb' 0 6

/-- The status word `{OP, CID, OCC, PH, ERR}` (R80). -/
def statusWord (op cid : Byte) (oc : BitVec 6) (ph : BitVec 2) (err : Byte) : Word :=
  op ++ cid ++ oc ++ ph ++ err

/-- `status(op, cid, err)`: OCC and PH of the slot after the command; 0 when ERR is ERR_ILLEGAL or ERR_BAD_CID (R80). -/
def status (op : Byte) (cid : Nat) (e : Err) (s : State) : Word :=
  match e, s.slots[cid]? with
  | .illegal, _ => statusWord op (BitVec.ofNat 8 cid) 0 0 (errCode .illegal)
  | .badCid, _ => statusWord op (BitVec.ofNat 8 cid) 0 0 (errCode .badCid)
  | e, some sl => statusWord op (BitVec.ofNat 8 cid) (occ sl) (phaseCode sl.ph) (errCode e)
  | e, none => statusWord op (BitVec.ofNat 8 cid) 0 0 (errCode e)

end Sys2Proof.Machine
end

