-- ==== Sys2Proof/Machine/Ops.lean ====
section
/-!
DEFINITION. The named operations over slots and queues: appending responses (00_scope R14, 30_encoding R79), raising an
error (60_exceptions R205), absorbing a byte (41_context_and_feed R141), creating and zeroizing a context (R140, R181).
MD5CE has no addressable memory (20_memory R50): the only byte-indexed storage is a slot's buffer (R51).
-/

namespace Sys2Proof.Machine

/-- Write slot `c`. A number `c >= NCTX` names no slot, and nothing is written (R72). -/
def setSlot (c : Nat) (sl : Slot) (s : State) : State :=
  { s with slots := s.slots.set c sl }

/-- Append to RQ as many of the words waiting in `pend` as it has room for, in order (R14, R32). -/
def drain (s : State) : State :=
  { s with
    rq := s.rq ++ s.pend.take (s.rspDepth - s.rq.length)
    pend := s.pend.drop (s.rspDepth - s.rq.length) }

/-- `Respond` of a command's words, in order: those RQ has no room for yet wait in `pend` (R14, R79, R237). -/
def respond (ws : List Word) (s : State) : State :=
  drain { s with pend := s.pend ++ ws }

/-- The end of a command: one status word, then the digest words if any, and DS = WAIT_CMD again (R79, R205). -/
def complete (op : Byte) (cid : Nat) (e : Err) (digest : List Word) (s : State) : State :=
  respond (status op cid e s :: digest) { s with ds := .waitCmd }

/-- `raise E` (R14, R205), shared by every command: no context state changes, exactly one status word carrying E is
appended, no digest word, and the engine returns to DS = WAIT_CMD. There is no trap: nothing is saved and control goes
nowhere (R210, R211). -/
def raiseErr (op : Byte) (cid : Nat) (e : Err) (s : State) : State :=
  complete op cid e [] s

/-- The free bytes BUF of slot `c` holds after it has become unspecified for the `k`-th time (R27, R141; log entry 7). -/
def staleBuf (c k : Nat) : Vector Byte 64 :=
  Vector.ofFn fun i => Config.staleByte c k i.val

/-- The index the next byte goes to: the occupancy before the byte, `CNT mod 64` (R26, R141). -/
def bufIndex (sl : Slot) : Nat := (occ sl).toNat

/-- `Absorb(c, b)` on the slot's fields (R141). After the compression the buffer's 64 bytes are unspecified. -/
def absorb (c : Nat) (sl : Slot) (b : Byte) : Slot :=
  let buf := sl.buf.setIfInBounds (bufIndex sl) b
  if bufIndex sl = 63 then
    { sl with
      h := compress sl.h buf
      cnt := sl.cnt + 1
      buf := staleBuf c sl.draws
      draws := sl.draws + 1 }
  else
    { sl with cnt := sl.cnt + 1, buf := buf }

/-- Absorb a sequence of bytes, one at a time and in order (R143: `for j in 0..n-1: Absorb(cid, span[j])`). -/
def absorbAll (c : Nat) (sl : Slot) (bs : List Byte) : Slot :=
  bs.foldl (absorb c) sl

/-- Create a fresh context in a slot: PH, H and CNT are written, BUF is not (R140). -/
def createContext (sl : Slot) : Slot :=
  { sl with ph := .fresh, h := iv, cnt := 0 }

/-- `Zeroize(c)` (R181). -/
def zeroize (sl : Slot) : Slot :=
  { sl with ph := .idle, h := ⟨0, 0, 0, 0⟩, cnt := 0, buf := Vector.replicate 64 0 }

/-- The reset of one slot: IDLE with H, CNT and BUF zero (R37, R230). The count of free values goes on (log entry 7). -/
def resetSlot (sl : Slot) : Slot :=
  { Slot.reset with draws := sl.draws }

/-- The reset input is asserted (R230): every slot, DS and both queues take their reset values, the command in progress is
abandoned and appends no further word; the configuration stays (R231). -/
def assertReset (s : State) : State :=
  { s with
    slots := s.slots.map resetSlot
    ds := .waitCmd
    cq := []
    rq := []
    pend := []
    rst := true }

end Sys2Proof.Machine
end

