-- ==== Sys2Proof/Machine/Operands.lean ====
section
/-!
DEFINITION. The operands of FEED and DIGEST: taking the payload words from CQ (10_state R31, 30_encoding R77) and the span
of bytes they carry.
-/

namespace Sys2Proof.Machine

/-- Byte j of a payload, `p[j div 4][8*(j mod 4)+7 : 8*(j mod 4)]` (R77), for the words in order. -/
def payloadBytes (ws : List Word) : List Byte := ws.flatMap le32bytes

/-- The span a FEED or DIGEST with byte count `n` carries: its first `n` payload bytes; the others are ignored (R77). -/
def span (n : Nat) (ws : List Word) : List Byte := (payloadBytes ws).take n

/-- Take payload words of the command `op cid n` from CQ, after the words `taken` before: when all `ceil(n/4)` are there
the command is performed on them, else the engine waits in PAYLOAD for the missing ones (R31, R77, R206, R236). -/
def collect (op : PayloadOp) (perform : Nat → Nat → List Word → State → State) (cid n : Nat) (taken : List Word)
    (s : State) : State :=
  let missing := payloadWords n - taken.length
  let words := taken ++ s.cq.take missing
  let rest := { s with cq := s.cq.drop missing }
  if s.cq.length < missing then { rest with ds := .payload op cid n words } else perform cid n words rest

end Sys2Proof.Machine
end

