-- ==== Sys2Proof/Machine/Context.lean ====
section
/-!
DEFINITION. Context lifecycle and streaming feed: INIT (41_context_and_feed R140) and FEED (R143).
-/

namespace Sys2Proof.Machine

/-- INIT: create a fresh context in slot `cid`, in any phase; ERR_BAD_CID if `cid >= NCTX` (R140). -/
def execInit (cid : Nat) (s : State) : Host.Outcome State Fault Refusal :=
  .next (match s.slots[cid]? with
    | none => raiseErr 0x01 cid .badCid s
    | some sl => complete 0x01 cid .ok [] (setSlot cid (createContext sl) s))

/-- The slot after a FEED it accepts: the bytes `bs` of the span absorbed in order, then PH = ABSORBING if `n >= 1`
(R143; R144: with `n = 0` nothing changes). -/
def feedSlot (cid n : Nat) (sl : Slot) (bs : List Byte) : Slot :=
  if 1 ≤ n then { absorbAll cid sl bs with ph := .absorbing } else absorbAll cid sl bs

/-- FEED once its payload words `ws` are taken: the checks of R143 in their order, then the bytes are absorbed. -/
def performFeed (cid n : Nat) (ws : List Word) (s : State) : State :=
  match s.slots[cid]? with
  | none => raiseErr 0x02 cid .badCid s
  | some sl =>
    match sl.ph with
    | .idle => raiseErr 0x02 cid .noContext s
    | .finalized => raiseErr 0x02 cid .finalized s
    | .fresh => complete 0x02 cid .ok [] (setSlot cid (feedSlot cid n sl (span n ws)) s)
    | .absorbing => complete 0x02 cid .ok [] (setSlot cid (feedSlot cid n sl (span n ws)) s)

/-- FEED: take the payload, then append its bytes to the context (R143). -/
def execFeed (cid n : Nat) (s : State) : Host.Outcome State Fault Refusal :=
  .next (collect .feed performFeed cid n [] s)

end Sys2Proof.Machine
end

