-- ==== Sys2Proof/Machine/Finalize.lean ====
section
/-!
DEFINITION. Padding, finalization and one-shot digest: FINAL (42_finalization R178) and DIGEST (R180).
-/

namespace Sys2Proof.Machine

/-- The number of padding bytes before the length field, for a message whose byte count is `l` (R170). -/
def padCount (l : Count) : Nat :=
  if l.toNat % 64 < 56 then 56 - l.toNat % 64 else 120 - l.toNat % 64

/-- The padding: the byte 0x80, then `padn - 1` bytes 0x00 (R171). -/
def padding (l : Count) : List Byte :=
  0x80 :: List.replicate (padCount l - 1) 0x00

/-- The bit count `(L * 8) mod 2^64` (R172). -/
def bitCount (l : Count) : Count := l * 8

/-- What finalization absorbs: the padding, then the 8 bytes of the length field (R175). -/
def finalBytes (l : Count) : List Byte :=
  padding l ++ le64bytes (bitCount l)

/-- `Finalize(c)` on the slot; the bit count is taken from CNT before any padding byte is absorbed (R175). -/
def finalizeSlot (c : Nat) (sl : Slot) : Slot :=
  absorbAll c sl (finalBytes sl.cnt)

/-- The digest, H serialized little-endian (R53, R176). -/
def digestBytes (h : HWords) : List Byte :=
  le32bytes h.h0 ++ le32bytes h.h1 ++ le32bytes h.h2 ++ le32bytes h.h3

/-- The four digest words `Dk = H[k]` (R81). -/
def digestWords (h : HWords) : List Word := [h.h0, h.h1, h.h2, h.h3]

/-- FINAL: the checks of R178 in their order, then Finalize, PH = FINALIZED, the status word and the four digest words. -/
def execFinal (cid : Nat) (s : State) : Host.Outcome State Fault Refusal :=
  .next (match s.slots[cid]? with
    | none => raiseErr 0x03 cid .badCid s
    | some sl =>
      match sl.ph with
      | .idle => raiseErr 0x03 cid .noContext s
      | .finalized => raiseErr 0x03 cid .finalized s
      | .fresh =>
        complete 0x03 cid .ok (digestWords (finalizeSlot cid sl).h)
          (setSlot cid { finalizeSlot cid sl with ph := .finalized } s)
      | .absorbing =>
        complete 0x03 cid .ok (digestWords (finalizeSlot cid sl).h)
          (setSlot cid { finalizeSlot cid sl with ph := .finalized } s))

/-- The working context of a DIGEST of the bytes `bs`, finalized: created, fed and finalized (R180). -/
def digestSlot (cid : Nat) (sl : Slot) (bs : List Byte) : Slot :=
  finalizeSlot cid (absorbAll cid (createContext sl) bs)

/-- DIGEST once its payload words `ws` are taken (R180): the digest words are captured, then the slot is zeroized, then
the status word and the digest words are appended (R181). -/
def performDigest (cid n : Nat) (ws : List Word) (s : State) : State :=
  match s.slots[cid]? with
  | none => raiseErr 0x04 cid .badCid s
  | some sl =>
    complete 0x04 cid .ok (digestWords (digestSlot cid sl (span n ws)).h)
      (setSlot cid (zeroize (digestSlot cid sl (span n ws))) s)

/-- DIGEST: take the payload, then digest its bytes in one command, in any phase of the slot (R180). -/
def execDigest (cid n : Nat) (s : State) : Host.Outcome State Fault Refusal :=
  .next (collect .digest performDigest cid n [] s)

end Sys2Proof.Machine
end

