-- ==== Sys2Proof/Machine/Dispatch.lean ====
section
/-!
DEFINITION. The meaning of each command, one arm per constructor (30_encoding R74).
-/

namespace Sys2Proof.Machine

/-- The meaning of a command whose command word has just been taken from CQ. -/
def exec (i : Instr) (s : State) : Host.Outcome State Fault Refusal :=
  match i with
  | .init cid => Sys2Proof.Machine.execInit cid s
  | .feed cid n => Sys2Proof.Machine.execFeed cid n s
  | .final cid => Sys2Proof.Machine.execFinal cid s
  | .digest cid n => Sys2Proof.Machine.execDigest cid n s

end Sys2Proof.Machine
end

