-- ==== Sys2Proof/Machine/Engine.lean ====
section
/-!
DEFINITION. One step of the engine (00_scope R9, R14; 10_state R31, R32), and the host's moves on the ports and on the
reset input (70_reset_and_hazards R230, R232, R242).
-/

namespace Sys2Proof.Machine

/-- A command word taken from CQ while DS = WAIT_CMD: its command is run, or the word is ILLEGAL and answered with
ERR_ILLEGAL, its OP and CID fields echoed, no payload taken (R76, R82, R204). -/
def runWord (w : Word) (s : State) : Host.Outcome State Fault Refusal :=
  match decode w with
  | .instr i => exec i s
  | .illegal _ => .next (raiseErr (opField w) (cidField w).toNat .illegal s)

/-- The engine goes on taking the payload of the command it is in (R31). -/
def resume (op : PayloadOp) (cid n : Nat) (taken : List Word) (s : State) : State :=
  match op with
  | .feed => collect .feed performFeed cid n taken s
  | .digest => collect .digest performDigest cid n taken s

/-- RQ is full: no step of the engine (R32, 92 D23, 93 I12). -/
def rqFull (s : State) : Bool := decide (s.rspDepth ≤ s.rq.length)

/-- One step of the engine. It has no step while reset is asserted (R230), while RQ is full (R32, R237), and while it needs a
word and CQ is empty (R14, R32). Which wait is named where several hold is log entry 15. -/
def engineStep (s : State) : Host.Outcome State Fault Refusal :=
  if s.rst then .fault .waitReset
  else if rqFull s then .fault .waitResponse
  else match s.pend with
    | _ :: _ => .next (drain s)
    | [] =>
      match s.ds, s.cq with
      | .waitCmd, [] => .fault .waitCommand
      | .waitCmd, w :: rest => runWord w { s with cq := rest }
      | .payload _ _ _ _, [] => .fault .waitPayload
      | .payload op cid n taken, _ :: _ => .next (resume op cid n taken s)

/-- The host writes a word on CQ: it holds while CQ is full (R237); a word written while reset is asserted is discarded
(R232). -/
def hostWrite (w : Word) (s : State) : Option State :=
  if s.rst then some s
  else if s.cq.length < s.cqDepth then some { s with cq := s.cq ++ [w] }
  else none

/-- The host reads the next response word, if there is one (R32, R242). -/
def hostRead (s : State) : Option State :=
  match s.rq with
  | [] => none
  | w :: rest => some { s with rq := rest, got := s.got ++ [w] }

/-- A move of the host; `none` while it holds. `letEngine` is no move on the ports: `agentStep` gives the engine its turn. -/
def hostMove (m : HostMove) (s : State) : Option State :=
  match m with
  | .write w => hostWrite w s
  | .read => hostRead s
  | .assertReset => some (assertReset s)
  | .releaseReset => some { s with rst := false }
  | .letEngine => some s

/-- The engine's turn within the host's moves: its step if it has one, else nothing happens. -/
def engineTurn (s : State) : State :=
  match engineStep s with
  | .next t => t
  | .fault _ => s
  | .refused _ => s

/-- One step of the two agents (R9; log entry 10): the host makes its next move, and while it holds, or has no move left,
the engine steps. -/
def agentStep (s : State) : Host.Outcome State Fault Refusal :=
  match s.host with
  | [] => engineStep s
  | .letEngine :: rest => .next (engineTurn { s with host := rest })
  | m :: rest =>
    match hostMove m { s with host := rest } with
    | some t => .next t
    | none => engineStep s

/-- The words of a command as the host writes them on CQ: its command word and, after a FEED or DIGEST, payload words of
zeros (R77, R78). -/
def commandWords (w : Word) : List Word :=
  w :: List.replicate (decode w).payload 0

end Sys2Proof.Machine
end

