-- ==== Sys2Proof/Machine/Step.lean ====
section
/-!
DEFINITION. The step of the machine, and where it takes its next command.
-/

namespace Sys2Proof.Machine

/-- One step of MD5CE and its host (00_scope R9). -/
def step (s : State) : Host.Outcome State Fault Refusal := agentStep s

/-- `s` with the command of `nbits` bits `w`, and payload words of zeros if it takes any, at the head of CQ, where the engine
takes its next word, the engine waiting for a command word and the host making no move: the next step runs that command
(log entry 12). A full RQ would hold the engine (R32): its words are then taken as read. -/
def State.withFetchWord (s : State) (nbits w : Nat) : State :=
  { s with
    ds := .waitCmd
    cq := commandWords (tableWord nbits w) ++ s.cq
    rq := if rqFull s then [] else s.rq
    pend := []
    rst := false
    host := [] }

end Sys2Proof.Machine
end

