-- ==== Sys2Proof/Safety.lean ====
section
/-!
DEFINITION. The terms in which claims about MD5CE are stated: what a run's end is (70_reset_and_hazards R241), the state
invariants, the message a context holds (10_state R36), the reference digest of a message (42_finalization R170 to R176),
sequences of commands (20_memory R61, R62), and what the unspecified buffer bytes may not influence (10_state R27).
-/

namespace Sys2Proof.Machine

/-! ## Responses -/

/-- The response words the engine has produced and the host has not read, in order. -/
def out (s : State) : List Word := s.rq ++ s.pend

/-- Every response word so far, in order: those the host has read, then `out`. -/
def stream (s : State) : List Word := s.got ++ out s

/-- The ERR field of a status word (R80). -/
def errField (w : Word) : Byte := w.extractLsb' 0 8

/-! ## Frames -/

/-- What a command on slot `c` leaves alone: every other slot with all its fields (R28), the number of slots, the
configuration, the reset input, and the host with what it has read. -/
def SameOutside (c : Nat) (s t : State) : Prop :=
  (∀ j, j ≠ c → t.slots[j]? = s.slots[j]?) ∧ t.slots.length = s.slots.length ∧ t.rspDepth = s.rspDepth ∧
    t.cqDepth = s.cqDepth ∧ t.rst = s.rst ∧ t.host = s.host ∧ t.got = s.got

/-- The engine waits for a command word, holds no response word back, is not in reset, RQ is not full (R32), and the host makes
no move. -/
def Ready (s : State) : Prop :=
  s.ds = .waitCmd ∧ s.pend = [] ∧ s.rst = false ∧ s.host = [] ∧ s.rq.length < s.rspDepth

/-! ## The end of a run (R241) -/

/-- Quiescent: DS = WAIT_CMD, CQ and RQ empty, and no response word held back. With RQ empty and nothing held back no response
word is left for the host to read, and such an end counts as a good one. DESIGN CHOICE (log entry 17): that holds also after a
reset that discarded response words unread (R37), which R241 does not mention. -/
def Quiescent (s : State) : Prop :=
  s.ds = .waitCmd ∧ s.cq = [] ∧ s.rq = [] ∧ s.pend = []

/-- `t` comes after `s` in a run: after no step, or after some. -/
inductive Reaches (s : State) : State → Prop where
  | here : Reaches s s
  | later {t u : State} (before : Reaches s t) (next : step t = .next u) : Reaches s u

/-- Stuck: DS = PAYLOAD(...) and CQ is empty with no more words to come (R236), or RQ is full and the host reads no more
(R237). What is to come is the rest of the run: no later state has a word in CQ or has left PAYLOAD (by reset), or no later
state has had a word read or RQ emptied (by reset). -/
def Stuck (s : State) : Prop :=
  (s.ds ≠ .waitCmd ∧ ∀ t, Reaches s t → t.ds = s.ds ∧ t.cq = []) ∨
    (s.rspDepth ≤ s.rq.length ∧ ∀ t, Reaches s t → t.rq = s.rq ∧ t.got = s.got)

/-- The host has no move it can make: none is left, or it holds, in a write while CQ is full or in a read while RQ is empty
(R237, R242). -/
def HostHolds (s : State) : Prop :=
  match s.host with
  | [] => True
  | .write _ :: _ => s.rst = false ∧ s.cqDepth ≤ s.cq.length
  | .read :: _ => s.rq = []
  | .assertReset :: _ => False
  | .releaseReset :: _ => False
  | .letEngine :: _ => False

/-! ## Invariants of the machine -/

/-- What a slot's phase says of its other fields: IDLE is zeroed (R37, R181), FRESH holds IV and no byte (R140), FINALIZED
has an empty buffer (R177). -/
def SlotSound (sl : Slot) : Prop :=
  match sl.ph with
  | .idle => sl.h = ⟨0, 0, 0, 0⟩ ∧ sl.cnt = 0 ∧ sl.buf = Vector.replicate 64 0
  | .fresh => sl.h = iv ∧ sl.cnt = 0
  | .absorbing => True
  | .finalized => sl.cnt.toNat % 64 = 0

/-- PAYLOAD(op, c, n, k) has fields of the command word's widths, and `0 <= k < ceil(n/4)` (R31). -/
def DecoderSound (d : Decoder) : Prop :=
  match d with
  | .waitCmd => True
  | .payload _ cid n taken => cid ≤ maxCid ∧ n ≤ maxN ∧ taken.length < payloadWords n

/-- The queues keep to their capacities, and at most one command's response is held back, after its end (R32, R79). -/
def QueuesFit (s : State) : Prop :=
  s.rq.length ≤ s.rspDepth ∧ s.cq.length ≤ s.cqDepth ∧ s.pend.length ≤ 5 ∧ (s.pend ≠ [] → s.ds = .waitCmd)

/-- While reset is asserted everything has its reset value (R230). -/
def ResetHolds (s : State) : Prop :=
  s.rst = true → Quiescent s ∧ ∀ sl ∈ s.slots, sl.ph = .idle

/-- The invariant of MD5CE: legal parameters, sound queues, decoder and slots. -/
def Inv (s : State) : Prop :=
  s.config.Valid ∧ QueuesFit s ∧ DecoderSound s.ds ∧ ResetHolds s ∧ ∀ sl ∈ s.slots, SlotSound sl

/-! ## The message of a context and its digest -/

/-- Block j of a byte sequence: its bytes 64j .. 64j+63. -/
def blockAt (msg : List Byte) (j : Nat) : Vector Byte 64 :=
  Vector.ofFn fun i => msg.getD (64 * j + i.val) 0

/-- The running state after the complete 64-byte blocks of `msg`, in order, from IV (R36: H is changed only by Compress
on complete blocks). -/
def hashBlocks (msg : List Byte) : HWords :=
  (List.range (msg.length / 64)).foldl (fun h j => compress h (blockAt msg j)) iv

/-- The slot holds the message `msg` (R25, R27, R36): CNT is its length modulo 2^64, H the running state after its
complete blocks, and the first OCC bytes of BUF its unprocessed tail. -/
def Represents (sl : Slot) (msg : List Byte) : Prop :=
  sl.cnt = BitVec.ofNat 64 msg.length ∧ sl.h = hashBlocks msg ∧
    ∀ j, j < msg.length % 64 → sl.buf.toList.getD j 0 = msg.getD (64 * (msg.length / 64) + j) 0

/-- Every FRESH slot holds the empty message and every ABSORBING slot a message of at least one byte (R22, R36). -/
def MessagesHeld (s : State) : Prop :=
  ∀ sl ∈ s.slots, (sl.ph = .fresh → Represents sl []) ∧ (sl.ph = .absorbing → ∃ msg, msg ≠ [] ∧ Represents sl msg)

/-- A message with its padding and length field: 0x80, the least number of zeros that leaves 8 bytes in the last block
(R170, R171), then the 8 bytes of `8 * len` modulo 2^64, least significant first (R172). -/
def padded (msg : List Byte) : List Byte :=
  msg ++ 0x80 :: List.replicate ((119 - msg.length % 64) % 64) 0x00 ++
    (List.range 8).map fun i => BitVec.ofNat 8 (8 * msg.length / 256 ^ i)

/-- The MD5 running state of a whole message: the reference FINAL and DIGEST are held against (R174 to R176). -/
def md5 (msg : List Byte) : HWords := hashBlocks (padded msg)

/-- One group of four rounds in the published form `a = b + ((a + F(b,c,d) + X[k] + T[i]) <<< s)`, the roles of a, b, c, d
cycling through the four written positions (R108). -/
def publishedGroup (x : List Word) (r : Regs) (g : Nat) : Regs :=
  let f (i : Nat) (a b c d : Word) : Word :=
    b + rotl32 (a + mix i b c d + x.getD (idxTab i) 0 + kTab.getD i 0) (sTab i)
  let a := f (4 * g) r.a r.b r.c r.d
  let d := f (4 * g + 1) r.d a r.b r.c
  let c := f (4 * g + 2) r.c d a r.b
  let b := f (4 * g + 3) r.b c d a
  ⟨a, b, c, d⟩

/-! ## Phases and errors -/

/-- The phase table of R148: the phase after a command on a valid slot, or the error it raises. -/
def phaseTable (i : Instr) (p : Phase) : Except Err Phase :=
  match i, p with
  | .init _, _ => .ok .fresh
  | .feed _ _, .idle => .error .noContext
  | .feed _ n, .fresh => .ok (if n = 0 then .fresh else .absorbing)
  | .feed _ _, .absorbing => .ok .absorbing
  | .feed _ _, .finalized => .error .finalized
  | .final _, .idle => .error .noContext
  | .final _, .fresh => .ok .finalized
  | .final _, .absorbing => .ok .finalized
  | .final _, .finalized => .error .finalized
  | .digest _ _, _ => .ok .idle

/-- The error a command word reports, by the priority of R208: ERR_ILLEGAL, then ERR_BAD_CID, then the phase errors. -/
def reportedErr (w : Word) (s : State) : Err :=
  match decode w with
  | .illegal _ => .illegal
  | .instr i =>
    match s.slots[i.cid]? with
    | none => .badCid
    | some sl =>
      match phaseTable i sl.ph with
      | .error e => e
      | .ok _ => .ok

/-- The command returns a digest when it ends in ERR_OK (R79). -/
def returnsDigest : Instr → Bool
  | .init _ => false
  | .feed _ _ => false
  | .final _ => true
  | .digest _ _ => true

/-! ## Sequences of commands -/

/-- Perform one command, the words `ws` being its payload words. -/
def issue (i : Instr) (ws : List Word) (s : State) : State :=
  match exec i { s with cq := ws } with
  | .next t => t
  | .fault _ => s
  | .refused _ => s

/-- The response words a command appends. -/
def answer (i : Instr) (ws : List Word) (s : State) : List Word :=
  (out (issue i ws s)).drop (out s).length

/-- A command with its payload words, of the number its command word asks for (R77, R236). -/
def Framed (p : Instr × List Word) : Prop := p.2.length = p.1.payload

/-- Perform commands one after another (R61). -/
def issueAll : List (Instr × List Word) → State → State
  | [], s => s
  | p :: rest, s => issueAll rest (issue p.1 p.2 s)

/-- The response words of those commands of a sequence that name slot `c`, in order. -/
def answersOn (c : Nat) : List (Instr × List Word) → State → List Word
  | [], _ => []
  | p :: rest, s =>
    (if p.1.cid = c then answer p.1 p.2 s else []) ++ answersOn c rest (issue p.1 p.2 s)

/-- `FEED c, s1` ... `FEED c, sk` (R83, R146). -/
def feedCommands (c : Nat) (chunks : List (List Byte)) : List (Instr × List Word) :=
  chunks.map fun bs => (.feed c bs.length, packWords bs)

/-! ## The unspecified bytes -/

/-- Two slots that differ at most in the bytes BUF[OCC..63] (and in the count of free values): R27. -/
def SlotAlike (a b : Slot) : Prop :=
  a.ph = b.ph ∧ a.h = b.h ∧ a.cnt = b.cnt ∧
    ∀ j, j < a.cnt.toNat % 64 → a.buf.toList.getD j 0 = b.buf.toList.getD j 0

/-- Two states that differ at most in the unspecified bytes of their slots. -/
def Alike (s t : State) : Prop :=
  List.Forall₂ SlotAlike s.slots t.slots ∧ s.ds = t.ds ∧ s.cq = t.cq ∧ s.rq = t.rq ∧ s.pend = t.pend ∧
    s.rspDepth = t.rspDepth ∧ s.cqDepth = t.cqDepth ∧ s.rst = t.rst ∧ s.host = t.host ∧ s.got = t.got

end Sys2Proof.Machine
end

