-- ==== Sys2Proof/Certificates/Slice0/Obligations.lean ====
section
/-!
DEFINITION. The statements about MD5CE for the provers. Each docstring names the rule of spec/ it formalises, or the
sections it rests on where the spec marks the sentence as its own inference.
-/

open Sys2Proof Sys2Proof.Machine

/-! ## Encoding -/

/-- 95_test_vectors 2.4 and 30_encoding 6: words written out there decode to the commands, or the kinds of illegal word,
written beside them. -/
def Obligations.SpecWordsDecode : Prop :=
  decode 0x01000000 = .instr (.init 0) ∧ decode 0x01030000 = .instr (.init 3) ∧
  decode 0x01FF0000 = .instr (.init 255) ∧
  decode 0x02010004 = .instr (.feed 1 4) ∧ decode 0x0200FFFF = .instr (.feed 0 65535) ∧
  decode 0x03000000 = .instr (.final 0) ∧ decode 0x04020001 = .instr (.digest 2 1) ∧
  decode 0x00000000 = .illegal .reservedOpcode ∧ decode 0x01000001 = .illegal .initCount ∧
  decode 0x03000100 = .illegal .finalCount ∧ decode 0x05000000 = .illegal .reservedOpcode ∧
  decode 0xFF123456 = .illegal .reservedOpcode

/-- R76: the decoder is total, with the five kinds of the rule's pseudocode, and P depends only on OP and N. -/
def Obligations.DecoderIsTotalOnFiveKinds : Prop :=
  ∀ w : Word,
    let op := w.toNat / 2 ^ 24
    let cid := w.toNat / 2 ^ 16 % 2 ^ 8
    let n := w.toNat % 2 ^ 16
    (op = 1 ∧ n = 0 → decode w = .instr (.init cid) ∧ (decode w).payload = 0) ∧
    (op = 2 → decode w = .instr (.feed cid n) ∧ (decode w).payload = (n + 3) / 4) ∧
    (op = 3 ∧ n = 0 → decode w = .instr (.final cid) ∧ (decode w).payload = 0) ∧
    (op = 4 → decode w = .instr (.digest cid n) ∧ (decode w).payload = (n + 3) / 4) ∧
    (¬ (op = 1 ∧ n = 0) ∧ op ≠ 2 ∧ ¬ (op = 3 ∧ n = 0) ∧ op ≠ 4 →
      (∃ why, decode w = .illegal why) ∧ (decode w).payload = 0)

/-- R75: a row of the opcode map selects a word by mask and match exactly when the word decodes to that row's command, with
CID and N where the row's pattern has its c and n bits; a word that matches none of the four rows is illegal. -/
def Obligations.DecoderFollowsMatchAndMask : Prop :=
  opcodeMap.map (fun r => (r.mnemonic, r.pattern, r.mask)) =
    [("INIT", 0x01000000, 0xFF00FFFF), ("FEED", 0x02000000, 0xFF000000),
     ("FINAL", 0x03000000, 0xFF00FFFF), ("DIGEST", 0x04000000, 0xFF000000)] ∧
  ∀ w : Word,
    (∀ r ∈ opcodeMap, (w &&& r.mask = r.pattern) ↔
      ∃ i, decode w = .instr i ∧ i.mnemonic = r.mnemonic ∧ i.cid = (w.extractLsb' 16 8).toNat ∧
        i.count = (w.extractLsb' 0 16).toNat) ∧
    ((∀ r ∈ opcodeMap, w &&& r.mask ≠ r.pattern) ↔ ∃ why, decode w = .illegal why)

/-- 30_encoding 1 and 2: every well-formed command decodes from the word that encodes it, with CID and N at every value
the encoding admits. -/
def Obligations.DecodeOfEncodeIsTheCommand : Prop :=
  ∀ i : Instr, i.wellFormed = true → decode (encode i) = .instr i

/-- 30_encoding 1 and 2: a word that decodes to a command is the encoding of that command, which is well-formed: each
command has exactly one word. -/
def Obligations.EncodeOfDecodeIsTheWord : Prop :=
  ∀ (w : Word) (i : Instr), decode w = .instr i → encode i = w ∧ i.wellFormed = true

/-- R77: a FEED or DIGEST with byte count n takes exactly ceil(n/4) payload words; message byte j is
`p[j div 4][8*(j mod 4)+7 : 8*(j mod 4)]`; the bytes past n have no effect on any state or response. -/
def Obligations.PayloadCarriesTheSpan : Prop :=
  ∀ (cid n : Nat) (p rest : List Word), p.length = (n + 3) / 4 →
    (span n p).length = n ∧
    (∀ j, j < n → (span n p)[j]? = some ((p.getD (j / 4) 0).extractLsb' (8 * (j % 4)) 8)) ∧
    ∀ (s : State) (p' : List Word), p'.length = p.length →
      (∀ j, j < n → (p.getD (j / 4) 0).extractLsb' (8 * (j % 4)) 8 = (p'.getD (j / 4) 0).extractLsb' (8 * (j % 4)) 8) →
      (∃ t, exec (.feed cid n) { s with cq := p ++ rest } = .next t ∧ t.cq = rest ∧
        exec (.feed cid n) { s with cq := p' ++ rest } = .next t) ∧
      (∃ t, exec (.digest cid n) { s with cq := p ++ rest } = .next t ∧ t.cq = rest ∧
        exec (.digest cid n) { s with cq := p' ++ rest } = .next t)

/-- 30_encoding 3 and 6: the payload words the assembler writes for a span carry exactly that span. -/
def Obligations.PackedSpanIsRead : Prop :=
  ∀ bs : List Byte, (packWords bs).length = payloadWords bs.length ∧ span bs.length (packWords bs) = bs

/-- 30_encoding 6: FEEDL's chunks are the span cut in order into pieces of at most 65535 bytes; an empty span is one empty
chunk. That every other span of at most 65535 bytes is one chunk too is the model's choice (log entry 16). -/
def Obligations.FeedlChunksAreTheSpan : Prop :=
  ∀ bs : List Byte, (feedlChunks bs).flatten = bs ∧ (∀ c ∈ feedlChunks bs, c.length ≤ 65535) ∧
    (bs.length ≤ 65535 → feedlChunks bs = [bs])

/-! ## The status word and the responses -/

/-- R80: the fields of the status word of a command: OP and CID copied, OCC = CNT[5:0] and PH of the slot after the
command, both 0 when ERR is ERR_ILLEGAL or ERR_BAD_CID, and ERR; and the first word every command word is answered with is
this status word, of its own OP and CID fields, the error it reports, and the slots as they are after it. -/
def Obligations.StatusWordHasItsFields : Prop :=
  (∀ (op : Byte) (cid : Nat) (e : Err) (s : State),
    let w := status op cid e s
    w.extractLsb' 24 8 = op ∧ w.extractLsb' 16 8 = BitVec.ofNat 8 cid ∧ w.extractLsb' 0 8 = errCode e ∧
    (e = .illegal ∨ e = .badCid → w.extractLsb' 10 6 = 0 ∧ w.extractLsb' 8 2 = 0) ∧
    (e ≠ .illegal ∧ e ≠ .badCid → ∀ sl, s.slots[cid]? = some sl →
      w.extractLsb' 10 6 = sl.cnt.extractLsb' 0 6 ∧
      w.extractLsb' 8 2 = (match sl.ph with | .idle => 0 | .fresh => 1 | .absorbing => 2 | .finalized => 3))) ∧
  ∀ (s : State) (w : Word) (p rest : List Word), Ready s → s.cq = w :: p ++ rest → p.length = (decode w).payload →
    ∃ t ds, step s = .next t ∧
      stream t = stream s ++ status (w.extractLsb' 24 8) (w.extractLsb' 16 8).toNat (reportedErr w s) t :: ds

/-- R79: one status word for every command word taken, illegal ones included, its OP and CID fields copied from it; it is
appended only after the last payload word is taken, and the four digest words of a FINAL or DIGEST that ends in ERR_OK
follow it immediately; nothing else is appended. The last two clauses are a command whose payload words come in several parts:
a part that is not the last appends nothing, the last brings the answer. -/
def Obligations.OneStatusWordPerCommand : Prop :=
  (∀ (s : State) (w : Word) (p rest : List Word), Ready s → s.cq = w :: p ++ rest →
    (p.length = (decode w).payload →
      ∃ t st ds, step s = .next t ∧ t.ds = .waitCmd ∧ t.cq = rest ∧ stream t = stream s ++ st :: ds ∧
        st.extractLsb' 16 16 = w.extractLsb' 16 16 ∧
        ds.length = (match decode w with
          | .instr i => if returnsDigest i = true ∧ errField st = 0 then 4 else 0
          | .illegal _ => 0)) ∧
    (p.length < (decode w).payload → rest = [] →
      ∃ t, step s = .next t ∧ t.ds ≠ .waitCmd ∧ t.cq = [] ∧ stream t = stream s ∧ t.slots = s.slots)) ∧
  ∀ (s : State) (op : PayloadOp) (cid n : Nat) (taken p rest : List Word), s.host = [] → s.rst = false → s.pend = [] →
    s.rq.length < s.rspDepth → s.ds = .payload op cid n taken → s.cq = p ++ rest → p ≠ [] →
    (taken.length + p.length < (n + 3) / 4 → rest = [] →
      ∃ t, step s = .next t ∧ t.ds = .payload op cid n (taken ++ p) ∧ t.cq = [] ∧ stream t = stream s ∧ t.slots = s.slots) ∧
    (taken.length + p.length = (n + 3) / 4 → ∃ t st ds, step s = .next t ∧ t.ds = .waitCmd ∧ t.cq = rest ∧ stream t = stream s ++ st :: ds ∧
      st.extractLsb' 24 8 = (match op with | .feed => 0x02 | .digest => 0x04) ∧ st.extractLsb' 16 8 = BitVec.ofNat 8 cid ∧
      ds.length = if op = .digest ∧ errField st = 0 then 4 else 0)

/-- R208, with R201 to R204: the error a command word reports, in the order ERR_ILLEGAL, ERR_BAD_CID, then the phase errors;
0x05..0xFF never appear. -/
def Obligations.ErrorsHaveTheirPriority : Prop :=
  ∀ (s : State) (w : Word) (p rest : List Word), Ready s → s.cq = w :: p ++ rest → p.length = (decode w).payload →
    ∃ t st ds, step s = .next t ∧ stream t = stream s ++ st :: ds ∧
      errField st =
        (match decode w with
          | .illegal _ => 0x04
          | .instr i =>
            match s.slots[i.cid]? with
            | none => 0x03
            | some sl =>
              match i, sl.ph with
              | .feed _ _, .idle => 0x02
              | .feed _ _, .finalized => 0x01
              | .final _, .idle => 0x02
              | .final _, .finalized => 0x01
              | _, _ => 0x00)

/-- R205: a command that raises an error changes no context state, appends exactly one status word and no digest word, and
the engine returns to WAIT_CMD to decode the next CQ word as a command word. -/
def Obligations.ErrorsChangeNoContext : Prop :=
  ∀ (s : State) (w : Word) (p rest : List Word), Ready s → s.cq = w :: p ++ rest → p.length = (decode w).payload →
    reportedErr w s ≠ .ok →
    ∃ t, step s = .next t ∧ t.slots = s.slots ∧
      stream t = stream s ++ [status (w.extractLsb' 24 8) (w.extractLsb' 16 8).toNat (reportedErr w s) s] ∧
      t.ds = .waitCmd ∧ t.cq = rest

/-- R204: a word with OP = 0x00, OP in 0x05..0xFF, or OP in {0x01, 0x03} with N != 0 raises ERR_ILLEGAL; no slot is read or
written (the status word has OCC and PH 0) and no payload word is taken. -/
def Obligations.IllegalWordsAreReported : Prop :=
  ∀ (s : State) (w : Word) (rest : List Word), Ready s → s.cq = w :: rest →
    (let op := w.toNat / 2 ^ 24
     let n := w.toNat % 2 ^ 16
     op = 0 ∨ 5 ≤ op ∨ ((op = 1 ∨ op = 3) ∧ n ≠ 0)) →
    ∃ t, step s = .next t ∧ t.slots = s.slots ∧ t.cq = rest ∧ t.ds = .waitCmd ∧
      stream t = stream s ++ [statusWord (w.extractLsb' 24 8) (w.extractLsb' 16 8) 0 0 0x04]

/-- R203: a command whose CID is NCTX or more raises ERR_BAD_CID; no slot is read (the response is a fixed word) or
written. -/
def Obligations.BadSlotNumbersAreReported : Prop :=
  ∀ (i : Instr) (s : State), s.nctx ≤ i.cid → i.payload ≤ s.cq.length →
    ∃ t, exec i s = .next t ∧ t.slots = s.slots ∧ t.ds = .waitCmd ∧ t.cq = s.cq.drop i.payload ∧
      out t = out s ++ [statusWord i.opcode (BitVec.ofNat 8 i.cid) 0 0 0x03]

/-- R206: a FEED or DIGEST that raises an error still takes all its payload words before it appends its status word, the
slots are unchanged whatever those words are, and the word after them is the next command word; an ILLEGAL word takes none. -/
def Obligations.ErroneousPayloadIsConsumed : Prop :=
  (∀ (i : Instr) (s : State) (p rest : List Word), p.length = i.payload → s.cq = p ++ rest →
    (∀ sl, s.slots[i.cid]? = some sl → phaseTable i sl.ph = .error .noContext ∨ phaseTable i sl.ph = .error .finalized) →
    ∃ t, exec i s = .next t ∧ t.slots = s.slots ∧ t.cq = rest ∧ t.ds = .waitCmd ∧ (out t).length = (out s).length + 1 ∧
      ∀ p', p'.length = p.length → exec i { s with cq := p' ++ rest } = .next t) ∧
  (∀ (i : Instr) (s : State), s.cq.length < i.payload →
    ∃ t, exec i s = .next t ∧ t.slots = s.slots ∧ t.cq = [] ∧ t.ds ≠ .waitCmd ∧ out t = out s) ∧
  (∀ (s : State) (w : Word) (rest : List Word) (why : Illegal), Ready s → s.cq = w :: rest → decode w = .illegal why →
    ∃ t, step s = .next t ∧ t.cq = rest ∧ t.ds = .waitCmd)

/-- R32 and R237 (RQ): words enter RQ in the order they are appended, none lost, as many as it has room for; the others wait,
in order. -/
def Obligations.ResponsesWaitForRoomInOrder : Prop :=
  ∀ (ws : List Word) (s : State), s.rq.length ≤ s.rspDepth →
    out (respond ws s) = out s ++ ws ∧
    (respond ws s).rq = (out s ++ ws).take s.rspDepth ∧ (respond ws s).rq.length ≤ s.rspDepth ∧
    ((respond ws s).pend ≠ [] → (respond ws s).rq.length = s.rspDepth) ∧
    (respond ws s).slots = s.slots ∧ (respond ws s).ds = s.ds ∧ (respond ws s).cq = s.cq

/-! ## The compression function -/

/-- R100 to R103: the four mixing functions, with the bit each selects and the corner cases and examples of the rules. -/
def Obligations.MixingFunctions : Prop :=
  (∀ x y z : Word,
    f0 x y z = (x &&& y) ||| (~~~x &&& z) ∧ f1 x y z = (x &&& z) ||| (y &&& ~~~z) ∧
    f2 x y z = x ^^^ y ^^^ z ∧ f3 x y z = y ^^^ (x ||| ~~~z) ∧
    (∀ i, i < 32 → (f0 x y z).getLsbD i = (if x.getLsbD i then y.getLsbD i else z.getLsbD i) ∧
      (f1 x y z).getLsbD i = (if z.getLsbD i then x.getLsbD i else y.getLsbD i)) ∧
    f0 0xFFFFFFFF y z = y ∧ f0 0 y z = z ∧ f1 x y 0xFFFFFFFF = x ∧ f1 x y 0 = y ∧ f2 x x z = z ∧
    f3 0xFFFFFFFF y z = ~~~y) ∧
  f3 0 0 0 = 0xFFFFFFFF ∧
  f0 0xEFCDAB89 0x98BADCFE 0x10325476 = 0x98BADCFE ∧ f1 0xEFCDAB89 0x98BADCFE 0x10325476 = 0x88888888 ∧
  f2 0xEFCDAB89 0x98BADCFE 0x10325476 = 0x67452301 ∧ f3 0xEFCDAB89 0x98BADCFE 0x10325476 = 0x77777777

/-- R104, R106, and the index schedule of R107's formulas: the phase of a round, its mixing function and the registers it is
applied to, its rotation amount (each in 4..23, to the left) and its message word. -/
def Obligations.RoundSchedule : Prop :=
  ∀ i, i < 64 →
    (∀ x y z : Word, mix i x y z =
      if i ≤ 15 then f0 x y z else if i ≤ 31 then f1 x y z else if i ≤ 47 then f2 x y z else f3 x y z) ∧
    rphase i = i / 16 ∧
    some (sTab i) = (([[7, 12, 17, 22], [5, 9, 14, 20], [4, 11, 16, 23], [6, 10, 15, 21]] : List (List Nat))[i / 16]?.bind
      fun row => row[i % 4]?) ∧
    4 ≤ sTab i ∧ sTab i ≤ 23 ∧ (∀ x : Word, rotl32 x (sTab i) = x.rotateLeft (sTab i)) ∧
    (∀ (x : List Word) (r : Regs), roundStep x r i =
      { a := r.d, c := r.b, d := r.c,
        b := r.b + rotl32 (r.a + mix i r.b r.c r.d + kTab.getD i 0 + x.getD (idxTab i) 0) (sTab i) }) ∧
    some (idxTab i) = ([i % 16, (1 + 5 * (i % 16)) % 16, (5 + 3 * (i % 16)) % 16, 7 * (i % 16) % 16] : List Nat)[i / 16]?

/-- 40_compression 3 (R108's last part, which the spec took from the published definition): the sequential rounds compute the
published form, four rounds at a time with the roles of a, b, c, d cycling. -/
def Obligations.RoundsEqualThePublishedForm : Prop :=
  ∀ (h : HWords) (blk : Vector Byte 64),
    let r := (List.range 16).foldl (publishedGroup (msgWords blk)) ⟨h.h0, h.h1, h.h2, h.h3⟩
    compress h blk = ⟨h.h0 + r.a, h.h1 + r.b, h.h2 + r.c, h.h3 + r.d⟩

/-- R52: the 16 message words of a block: `X[j] = le32(B[4j], B[4j+1], B[4j+2], B[4j+3])`, byte B[4j] in bits 7:0 and
B[4j+3] in bits 31:24, and the rule's example. -/
def Obligations.MessageWordsAreLittleEndian : Prop :=
  (∀ blk : Vector Byte 64, (msgWords blk).length = 16 ∧
    ∀ (j : Nat) (_ : j < 16),
      (msgWords blk)[j]? = some (le32 blk[4 * j] blk[4 * j + 1] blk[4 * j + 2] blk[4 * j + 3]) ∧
      ((msgWords blk).getD j 0).extractLsb' 0 8 = blk[4 * j] ∧
      ((msgWords blk).getD j 0).extractLsb' 8 8 = blk[4 * j + 1] ∧
      ((msgWords blk).getD j 0).extractLsb' 16 8 = blk[4 * j + 2] ∧
      ((msgWords blk).getD j 0).extractLsb' 24 8 = blk[4 * j + 3]) ∧
  le32 0x61 0x62 0x63 0x80 = 0x80636261

/-- 95_test_vectors 2.1 (R112's examples among them): the compression function on the blocks written out there. They pin the
constant, rotation and index tables, which 93 K1 to K7 took from the published definition. -/
def Obligations.CompressAgreesWithTheVectors : Prop :=
  compress ⟨0x67452301, 0xEFCDAB89, 0x98BADCFE, 0x10325476⟩ ((Vector.replicate 64 0x00).set 0 0x80) =
    ⟨0xD98C1DD4, 0x04B2008F, 0x980980E9, 0x7E42F8EC⟩ ∧
  compress ⟨0x67452301, 0xEFCDAB89, 0x98BADCFE, 0x10325476⟩
      (((((Vector.replicate 64 0x00).set 0 0x61).set 1 0x62).set 2 0x63).set 3 0x80 |>.set 56 0x18) =
    ⟨0x98500190, 0xB04FD23C, 0x7D3F96D6, 0x727FE128⟩ ∧
  compress ⟨0x67452301, 0xEFCDAB89, 0x98BADCFE, 0x10325476⟩ (Vector.replicate 64 0x61) =
    ⟨0x89D4FF56, 0x125CD962, 0x69CADE33, 0x0033E325⟩ ∧
  compress ⟨0, 0, 0, 0⟩ (Vector.replicate 64 0x00) = ⟨0xF7CD1C97, 0xA5483681, 0x2B68D832, 0xF90CA639⟩ ∧
  compress ⟨0xFFFFFFFF, 0xFFFFFFFF, 0xFFFFFFFF, 0xFFFFFFFF⟩ (Vector.replicate 64 0xFF) =
    ⟨0x6CBA9129, 0x29FFD12A, 0x8B9BB7D3, 0xA9A0A3C1⟩

/-- 95_test_vectors 1 (S1 to S3): the reference digest, against which FINAL and DIGEST are stated, gives the three published
digests, of the empty message, of "abc" and of the alphabet. -/
def Obligations.ReferenceDigestIsThePublishedOne : Prop :=
  digestWords (md5 []) = [0xD98C1DD4, 0x04B2008F, 0x980980E9, 0x7E42F8EC] ∧
  digestWords (md5 [0x61, 0x62, 0x63]) = [0x98500190, 0xB04FD23C, 0x7D3F96D6, 0x727FE128] ∧
  digestWords (md5 ((List.range 26).map fun i => BitVec.ofNat 8 (0x61 + i))) =
    [0xD7D3FCC3, 0x00E49261, 0x6C49FB7D, 0x3BE167CA]

/-- R53: the digest is H serialized little-endian; digest byte 4k+i is `H[k][8i+7 : 8i]`. With it, R81's digest words: a
little-endian host that stores D0..D3 holds the digest bytes in order. -/
def Obligations.DigestIsLittleEndian : Prop :=
  ∀ h : HWords,
    digestBytes h = le32bytes h.h0 ++ le32bytes h.h1 ++ le32bytes h.h2 ++ le32bytes h.h3 ∧
    (digestBytes h).length = 16 ∧
    (∀ k i, k < 4 → i < 4 →
      (digestBytes h)[4 * k + i]? = (digestWords h)[k]?.map fun w => w.extractLsb' (8 * i) 8) ∧
    packWords (digestBytes h) = digestWords h

/-! ## Absorbing bytes -/

/-- R141: the byte goes to BUF[CNT[5:0]], CNT counts it modulo 2^64, and Compress runs, on H and the 64 bytes of the buffer,
exactly when the buffer has just become a full block; after it the occupancy is 0. -/
def Obligations.AbsorbOneByte : Prop :=
  ∀ (c : Nat) (sl : Slot) (b : Byte),
    let i := sl.cnt.toNat % 64
    (absorb c sl b).cnt = sl.cnt + 1 ∧ (absorb c sl b).ph = sl.ph ∧
    (i ≠ 63 → (absorb c sl b).h = sl.h ∧ (absorb c sl b).buf = sl.buf.setIfInBounds i b) ∧
    (i = 63 → (absorb c sl b).h = compress sl.h (sl.buf.setIfInBounds 63 b) ∧ (absorb c sl b).cnt.toNat % 64 = 0)

/-- 41_context_and_feed 3 (R145, which the spec derives): from occupancy o, n bytes give CNT + n, occupancy (o + n) mod 64
and exactly (o + n) div 64 compressions; `draws` counts the compressions (log entry 7). -/
def Obligations.FeedCompressionCount : Prop :=
  ∀ (c : Nat) (sl : Slot) (bs : List Byte),
    let o := sl.cnt.toNat % 64
    (absorbAll c sl bs).cnt = sl.cnt + BitVec.ofNat 64 bs.length ∧
    (absorbAll c sl bs).cnt.toNat % 64 = (o + bs.length) % 64 ∧
    (absorbAll c sl bs).draws = sl.draws + (o + bs.length) / 64

/-- 20_memory 1 and 41_context_and_feed 2: a span that does not fill the buffer is stored at BUF[o], BUF[o+1], ..., and every
other byte of the buffer, and H, stays as it was. -/
def Obligations.PartialFeedKeepsOtherBytes : Prop :=
  ∀ (c : Nat) (sl : Slot) (bs : List Byte) (j : Nat),
    let o := sl.cnt.toNat % 64
    o + bs.length < 64 →
    (absorbAll c sl bs).h = sl.h ∧
    (o ≤ j ∧ j < o + bs.length → (absorbAll c sl bs).buf.toList.getD j 0 = bs.getD (j - o) 0) ∧
    (¬ (o ≤ j ∧ j < o + bs.length) → (absorbAll c sl bs).buf.toList.getD j 0 = sl.buf.toList.getD j 0)

/-! ## The commands complete, and what they leave unchanged -/

/-- 41_context_and_feed 1 (R140): INIT on a valid slot, in every phase, makes it FRESH with H = IV and CNT = 0, does not write
BUF, answers OCC 0, PH FRESH, ERR_OK, and leaves everything else alone. -/
def Obligations.InitCreatesAFreshContext : Prop :=
  ∀ (cid : Nat) (s : State) (sl : Slot), s.slots[cid]? = some sl →
    ∃ t, exec (.init cid) s = .next t ∧
      t.slots[cid]? = some { ph := .fresh, h := ⟨0x67452301, 0xEFCDAB89, 0x98BADCFE, 0x10325476⟩, cnt := 0,
                             buf := sl.buf, draws := sl.draws } ∧
      out t = out s ++ [statusWord 0x01 (BitVec.ofNat 8 cid) 0 1 0x00] ∧ t.ds = .waitCmd ∧ t.cq = s.cq ∧
      SameOutside cid s t

/-- 41_context_and_feed 3 (R143): FEED on a FRESH or ABSORBING slot, its payload words in CQ, absorbs the span in order,
leaves ABSORBING if n >= 1, answers the new OCC and PH with ERR_OK, and leaves everything else alone. -/
def Obligations.FeedAbsorbsItsSpan : Prop :=
  ∀ (cid n : Nat) (s : State) (sl : Slot), s.slots[cid]? = some sl → sl.ph = .fresh ∨ sl.ph = .absorbing →
    (n + 3) / 4 ≤ s.cq.length →
    ∃ t, exec (.feed cid n) s = .next t ∧
      t.slots[cid]? = some { absorbAll cid sl (span n (s.cq.take ((n + 3) / 4))) with
        ph := if n = 0 then sl.ph else .absorbing } ∧
      out t = out s ++ [statusWord 0x02 (BitVec.ofNat 8 cid) (BitVec.ofNat 6 (sl.cnt.toNat + n))
        (if n = 0 then phaseCode sl.ph else 2) 0x00] ∧
      t.ds = .waitCmd ∧ t.cq = s.cq.drop ((n + 3) / 4) ∧ SameOutside cid s t

/-- R144: FEED with N = 0 takes no payload word and changes no state of any slot; it answers one status word, with ERR_OK on a
FRESH or ABSORBING slot and with the errors of any FEED otherwise. -/
def Obligations.EmptyFeedIsANoOp : Prop :=
  ∀ (cid : Nat) (s : State),
    ∃ t, exec (.feed cid 0) s = .next t ∧ t.slots = s.slots ∧ t.cq = s.cq ∧ t.ds = .waitCmd ∧
      ∃ st, out t = out s ++ [st] ∧
        errField st = (match s.slots[cid]? with
          | none => 0x03
          | some sl => match sl.ph with
            | .idle => 0x02
            | .fresh => 0x00
            | .absorbing => 0x00
            | .finalized => 0x01)

/-- 70_reset_and_hazards 3 (R236), 10_state 4 (R31) and 30_encoding 4 (R79): a FEED or DIGEST that finds too few words in CQ
takes those there are and waits in PAYLOAD with no other effect; each step that finds some of the missing words but not all
takes them, after those held, with no other effect: no response word, no slot changed; when the last come, whatever they are,
the step does what the command would have done with all of them there at first. -/
def Obligations.SplitPayloadIsTheSame : Prop :=
  ∀ (s : State) (cid n : Nat) (p q : List Word), Ready s →
    (p.length < (n + 3) / 4 →
      exec (.feed cid n) { s with cq := p } = .next { s with cq := [], ds := .payload .feed cid n p } ∧
      exec (.digest cid n) { s with cq := p } = .next { s with cq := [], ds := .payload .digest cid n p }) ∧
    (q ≠ [] → (p ++ q).length < (n + 3) / 4 →
      step { s with cq := q, ds := .payload .feed cid n p } =
        .next { s with cq := [], ds := .payload .feed cid n (p ++ q) } ∧
      step { s with cq := q, ds := .payload .digest cid n p } =
        .next { s with cq := [], ds := .payload .digest cid n (p ++ q) }) ∧
    (p.length < (n + 3) / 4 → (n + 3) / 4 ≤ (p ++ q).length →
      step { s with cq := q, ds := .payload .feed cid n p } = exec (.feed cid n) { s with cq := p ++ q } ∧
      step { s with cq := q, ds := .payload .digest cid n p } = exec (.digest cid n) { s with cq := p ++ q })

/-- 42_finalization 2 and 3 (R175, R177, R178): FINAL on a FRESH or ABSORBING slot absorbs the padding and the length field,
leaves it FINALIZED with CNT = L + padn + 8, a multiple of 64, answers OCC 0, PH FINALIZED, ERR_OK and then the four words of
H, and leaves everything else alone. -/
def Obligations.FinalFinalizesTheContext : Prop :=
  ∀ (cid : Nat) (s : State) (sl : Slot), s.slots[cid]? = some sl → sl.ph = .fresh ∨ sl.ph = .absorbing →
    ∃ t d, exec (.final cid) s = .next t ∧ t.slots[cid]? = some d ∧ d.ph = .finalized ∧
      d.h = (absorbAll cid sl (padding sl.cnt ++ le64bytes (sl.cnt * 8))).h ∧
      d.cnt = sl.cnt + BitVec.ofNat 64 (padCount sl.cnt) + 8 ∧ d.cnt.toNat % 64 = 0 ∧
      out t = out s ++ [statusWord 0x03 (BitVec.ofNat 8 cid) 0 3 0x00, d.h.h0, d.h.h1, d.h.h2, d.h.h3] ∧
      t.ds = .waitCmd ∧ t.cq = s.cq ∧ SameOutside cid s t

/-- 42_finalization 3 (R180, R181): DIGEST on a valid slot, in every phase, its payload words in CQ, answers OCC 0, PH IDLE,
ERR_OK and then the digest words of its span, leaves the slot IDLE with H, CNT and BUF zero, and everything else alone. -/
def Obligations.DigestAnswersAndZeroizes : Prop :=
  ∀ (cid n : Nat) (s : State) (sl : Slot), s.slots[cid]? = some sl → (n + 3) / 4 ≤ s.cq.length →
    ∃ t d, exec (.digest cid n) s = .next t ∧ t.slots[cid]? = some d ∧ d.ph = .idle ∧ d.h = ⟨0, 0, 0, 0⟩ ∧ d.cnt = 0 ∧
      d.buf = Vector.replicate 64 0 ∧
      (let f := md5 (span n (s.cq.take ((n + 3) / 4)))
       out t = out s ++ [statusWord 0x04 (BitVec.ofNat 8 cid) 0 0 0x00, f.h0, f.h1, f.h2, f.h3]) ∧
      t.ds = .waitCmd ∧ t.cq = s.cq.drop ((n + 3) / 4) ∧ SameOutside cid s t

/-- R148: the complete phase-transition table. On a valid slot the phase after each command, or the error with the slot
unchanged; FINAL and DIGEST answer their status word and the four digest words, FINAL those of the slot's H and DIGEST those of
its span; DIGEST leaves the slot zeroized. -/
def Obligations.PhaseTransitions : Prop :=
  ∀ (i : Instr) (s : State) (sl : Slot), s.slots[i.cid]? = some sl → i.payload ≤ s.cq.length →
    ∃ t d, exec i s = .next t ∧ t.slots[i.cid]? = some d ∧
      match i, sl.ph with
      | .init _, _ => d.ph = .fresh
      | .feed _ n, .fresh => d.ph = if n = 0 then .fresh else .absorbing
      | .feed _ _, .absorbing => d.ph = .absorbing
      | .feed _ _, .idle => d = sl ∧ (out t).drop (out s).length = [status 0x02 i.cid .noContext t]
      | .feed _ _, .finalized => d = sl ∧ (out t).drop (out s).length = [status 0x02 i.cid .finalized t]
      | .final _, .idle => d = sl ∧ (out t).drop (out s).length = [status 0x03 i.cid .noContext t]
      | .final _, .finalized => d = sl ∧ (out t).drop (out s).length = [status 0x03 i.cid .finalized t]
      | .final _, _ => d.ph = .finalized ∧ (out t).drop (out s).length = status 0x03 i.cid .ok t :: digestWords d.h
      | .digest _ n, _ => d.ph = .idle ∧ d.h = ⟨0, 0, 0, 0⟩ ∧ d.cnt = 0 ∧ d.buf = Vector.replicate 64 0 ∧
          (out t).drop (out s).length =
            status 0x04 i.cid .ok t :: digestWords (md5 (span n (s.cq.take ((n + 3) / 4))))

/-- R170 and R171: the padding is 0x80 and then padn - 1 zeros, with padn = 56 - last or 120 - last, between 1 and 64, and it
leaves exactly 8 bytes of room for the length field in the last block; no smaller padding of at least one byte does. (The
bounds and the minimality are sentences that R170 marks as the spec's own derivations.) -/
def Obligations.PaddingLeavesRoomForTheLength : Prop :=
  ∀ l : Count,
    let last := l.toNat % 64
    (last < 56 → padCount l = 56 - last) ∧ (56 ≤ last → padCount l = 120 - last) ∧
    1 ≤ padCount l ∧ padCount l ≤ 64 ∧ (l.toNat + padCount l) % 64 = 56 ∧
    (∀ k, 1 ≤ k → (l.toNat + k) % 64 = 56 → padCount l ≤ k) ∧
    padding l = 0x80 :: List.replicate (padCount l - 1) 0x00

/-- R172: the bit count is `(L * 8) mod 2^64`, equal to `{L[60:0], 0b000}`, and its 8 bytes are least significant first; and
its two halves are `L[28:0] << 3` and `{L[60:32], L[31:29]}` (a sentence that R172 marks as the spec's own derivation). -/
def Obligations.LengthFieldIsTheBitCount : Prop :=
  ∀ l : Count,
    (bitCount l).toNat = l.toNat * 8 % 2 ^ 64 ∧ bitCount l = l.extractLsb' 0 61 ++ (0 : BitVec 3) ∧
    (bitCount l).extractLsb' 0 32 = l.extractLsb' 0 29 ++ (0 : BitVec 3) ∧
    (bitCount l).extractLsb' 32 32 = l.extractLsb' 32 29 ++ l.extractLsb' 29 3 ∧
    (le64bytes (bitCount l)).length = 8 ∧
    ∀ i, i < 8 → (le64bytes (bitCount l))[i]? = some ((bitCount l).extractLsb' (8 * i) 8)

/-- 42_finalization 1 (R174, which the spec derives): finalization compresses one block when last < 56 and two otherwise;
`draws` counts the compressions (log entry 7). -/
def Obligations.FinalizationCompressesOneOrTwoBlocks : Prop :=
  ∀ (c : Nat) (sl : Slot),
    (finalizeSlot c sl).draws = sl.draws + (if sl.cnt.toNat % 64 < 56 then 1 else 2)

/-! ## Digests of messages -/

/-- 41_context_and_feed 3 and 10_state 6 (R36, R143): a FEED accepted by a slot that holds a message leaves it holding that
message with the span appended: CNT its length modulo 2^64, H the running state after its complete blocks, BUF its tail. -/
def Obligations.FeedAppendsToTheMessage : Prop :=
  ∀ (cid n : Nat) (s : State) (sl : Slot) (msg : List Byte), s.slots[cid]? = some sl →
    sl.ph = .fresh ∨ sl.ph = .absorbing → Represents sl msg → (n + 3) / 4 ≤ s.cq.length →
    ∃ t d, exec (.feed cid n) s = .next t ∧ t.slots[cid]? = some d ∧
      Represents d (msg ++ span n (s.cq.take ((n + 3) / 4)))

/-- 42_finalization 2 and 3 (R174 to R176, R178): FINAL on a slot that holds a message answers ERR_OK and the four words of
the MD5 running state of that whole message, padded. -/
def Obligations.FinalReturnsTheDigestOfTheMessage : Prop :=
  ∀ (cid : Nat) (s : State) (sl : Slot) (msg : List Byte), s.slots[cid]? = some sl →
    sl.ph = .fresh ∨ sl.ph = .absorbing → Represents sl msg →
    ∃ t, exec (.final cid) s = .next t ∧
      out t = out s ++ [statusWord 0x03 (BitVec.ofNat 8 cid) 0 3 0x00,
        (md5 msg).h0, (md5 msg).h1, (md5 msg).h2, (md5 msg).h3]

/-- 42_finalization 3 (R182, which the spec derives): DIGEST of a span returns the digest words that INIT, any split of the
span into FEEDs, and FINAL return on the same slot. -/
def Obligations.DigestEqualsStreaming : Prop :=
  ∀ (cid : Nat) (s : State) (bs : List Byte) (chunks : List (List Byte)), cid < s.nctx → bs.length ≤ 65535 →
    chunks.flatten = bs →
    (answer (.digest cid bs.length) (packWords bs) s).drop 1 =
      (answer (.final cid) [] (issueAll ((.init cid, []) :: feedCommands cid chunks) s)).drop 1 ∧
    (answer (.digest cid bs.length) (packWords bs) s).length = 5

/-- 41_context_and_feed 3 (R146, which the spec derives): chunking invariance. Feeding any chunks to a FRESH or ABSORBING slot
leaves it with the H, CNT and BUF of absorbing the whole sequence byte by byte, ABSORBING if there is at least one byte and
its phase unchanged otherwise. (R146 speaks of BUF[0..OCC-1]; that BUF[OCC..63], and the count of free values, come out equal
as well is the model's, whose free bytes are numbered by compression: log entry 7.) -/
def Obligations.ChunkingIsInvisible : Prop :=
  ∀ (cid : Nat) (s : State) (sl : Slot) (chunks : List (List Byte)), s.slots[cid]? = some sl →
    sl.ph = .fresh ∨ sl.ph = .absorbing →
    (issueAll (feedCommands cid chunks) s).slots[cid]? =
      some { absorbAll cid sl chunks.flatten with ph := if chunks.flatten = [] then sl.ph else .absorbing }

/-! ## The machine -/

/-- 00_scope 3 and 10_state 4: when the engine waits for a command word and the word at the head of CQ decodes to a command, a
step is that command's meaning on the state with its command word taken. -/
def Obligations.StepRunsTheDecodedCommand : Prop :=
  ∀ (s : State) (w : Word) (rest : List Word) (i : Instr), Ready s → s.cq = w :: rest → decode w = .instr i →
    step s = exec i { s with cq := rest }

/-- 70_reset_and_hazards 4 (R239): with its words in CQ and room for 5 words in RQ, a command completes: the engine is back in
WAIT_CMD, its words are consumed, its whole response is in RQ and nothing is held back. -/
def Obligations.FramedCommandsComplete : Prop :=
  ∀ (s : State) (w : Word) (p rest : List Word), Ready s → s.cq = w :: p ++ rest → p.length = (decode w).payload →
    s.rq.length + 5 ≤ s.rspDepth →
    ∃ t ws, step s = .next t ∧ t.ds = .waitCmd ∧ t.cq = rest ∧ t.rq = s.rq ++ ws ∧ t.pend = [] ∧
      (ws.length = 1 ∨ ws.length = 5)

/-- 70_reset_and_hazards 4 (R239) and 10_state 4 (R32): with no host move to come, the step stops exactly in the two waits of
those rules, RQ full, whatever else there is to do, and CQ empty when a word is needed, or while reset is asserted. That the
engine has no step while reset is asserted is the model's deduction from 70_reset_and_hazards 1 (R230, R232; log entry 11). The
names of the stops are the model's (log entry 6), and so is which is named where several hold (log entry 15). -/
def Obligations.EngineHoldsOnlyInItsWaits : Prop :=
  ∀ s : State, s.host = [] →
    (step s = .fault .waitReset ↔ s.rst = true) ∧
    (step s = .fault .waitResponse ↔ s.rst = false ∧ s.rspDepth ≤ s.rq.length) ∧
    (step s = .fault .waitCommand ↔
      s.rst = false ∧ s.rq.length < s.rspDepth ∧ s.pend = [] ∧ s.ds = .waitCmd ∧ s.cq = []) ∧
    (step s = .fault .waitPayload ↔
      s.rst = false ∧ s.rq.length < s.rspDepth ∧ s.pend = [] ∧ s.ds ≠ .waitCmd ∧ s.cq = []) ∧
    ((∀ f, step s ≠ .fault f) → ∃ t, step s = .next t)

/-- 70_reset_and_hazards 5 (R241), with R236 and R237. A run stops only while the host holds (R237's two sides at once among
these states), and, reset released, only where the engine waits for a command word with RQ not full, or in a stuck state.
While the host holds, PAYLOAD with CQ empty and a full RQ are stuck, and the step stops there; so is PAYLOAD with CQ empty when
the host has no write left, and a full RQ when it has no read left, though it may still move. Nothing after a stuck state is
quiescent; a quiescent run with no host move left stops. That the step answers a fault where there is none to take is the
model's (log entry 6), and so is the form of the host (log entry 10). -/
def Obligations.RunsEndQuiescentOrStuck : Prop :=
  (∀ (s : State) (f : Fault), step s = .fault f → HostHolds s ∧
    (s.rst = false →
      (s.ds = .waitCmd ∧ s.pend = [] ∧ s.cq = [] ∧ s.rq.length < s.rspDepth) ∨ Stuck s)) ∧
  (∀ s : State, HostHolds s → s.rst = false →
    (s.ds ≠ .waitCmd ∧ s.pend = [] ∧ s.cq = []) ∨ s.rspDepth ≤ s.rq.length →
    Stuck s ∧ ∃ f, step s = .fault f) ∧
  (∀ s : State, (∀ m ∈ s.host, m = .read ∨ m = .letEngine) → s.ds ≠ .waitCmd → s.cq = [] → Stuck s) ∧
  (∀ s : State, (∀ m ∈ s.host, (∃ w, m = .write w) ∨ m = .letEngine) → s.rspDepth ≤ s.rq.length → Stuck s) ∧
  (∀ s t : State, 0 < s.rspDepth → Stuck s → Reaches s t → ¬ Quiescent t) ∧
  (∀ s : State, 0 < s.rspDepth → Quiescent s → s.rst = false → s.host = [] → step s = .fault .waitCommand)

/-- 30_encoding 2 and 60_exceptions 3 (R76, R82, R211): no step refuses, whatever the state and the host's moves. (Where a
step stops in a fault is `Obligations.EngineHoldsOnlyInItsWaits`.) -/
def Obligations.NothingIsRefused : Prop :=
  ∀ (s : State) (r : Refusal), step s ≠ .refused r

/-- R231, with 10_state 1: no step changes NCTX or RSP_DEPTH, whatever it does; reset among them. That no step changes the
capacity of CQ either, the platform's parameter, is the model's choice (log entry 1, with R237 and 93 I13). -/
def Obligations.ConfigurationIsFixed : Prop :=
  ∀ s t : State, step s = .next t → t.config = s.config

/-- 20_memory 5 (R61): the responses leave the engine in the order of the commands. Unless the host's next move asserts reset,
a step only adds words at the end of the response stream. -/
def Obligations.ResponsesKeepTheirOrder : Prop :=
  ∀ s t : State, step s = .next t → s.host.head? ≠ some .assertReset → stream s <+: stream t

/-- R62, which the spec derives (with R28): the final state of a slot, and every response of the commands that name it, depends
only on the subsequence of commands whose CID is that slot. -/
def Obligations.SlotsAreIndependent : Prop :=
  ∀ (c : Nat) (s : State) (cmds : List (Instr × List Word)), (∀ p ∈ cmds, Framed p) →
    (issueAll cmds s).slots[c]? = (issueAll (cmds.filter fun p => p.1.cid = c) s).slots[c]? ∧
    answersOn c cmds s = answersOn c (cmds.filter fun p => p.1.cid = c) s

/-- R28: a command reads and writes no field of a slot it does not name: one that finds the same words in CQ and the same slot
gives the same slot and the same response, whatever the other slots hold, and leaves those alone. -/
def Obligations.CommandsTouchOnlyTheirSlot : Prop :=
  ∀ (i : Instr) (s s' : State), s.slots[i.cid]? = s'.slots[i.cid]? → s.cq = s'.cq →
    ∃ t t', exec i s = .next t ∧ exec i s' = .next t' ∧ t.slots[i.cid]? = t'.slots[i.cid]? ∧
      (out t).drop (out s).length = (out t').drop (out s').length ∧ t.cq = t'.cq ∧
      SameOutside i.cid s t ∧ SameOutside i.cid s' t'

/-- R27, with 93 I2: the bytes BUF[OCC..63] are never read. Two states that differ at most in them stay so under every step,
with the same queues and the same responses. -/
def Obligations.UnspecifiedBytesAreNeverRead : Prop :=
  ∀ s t s' : State, Alike s t → step s = .next s' → ∃ t', step t = .next t' ∧ Alike s' t'

/-- R37: every piece of state after reset, for every choice of the OPEN parameters. (The host's fields and the count of free
values are the model's own and are not named.) -/
def Obligations.ResetValues : Prop :=
  ∀ c : Config,
    let s := State.resetWith c
    s.config = c ∧ s.nctx = c.nctx ∧
    (∀ j, j < c.nctx → ∃ sl, s.slots[j]? = some sl ∧ sl.ph = .idle ∧ phaseCode sl.ph = 0 ∧
      sl.h = ⟨0x00000000, 0x00000000, 0x00000000, 0x00000000⟩ ∧ sl.cnt = 0 ∧ ∀ k (_ : k < 64), sl.buf[k] = 0x00) ∧
    s.ds = .waitCmd ∧ s.cq = [] ∧ s.rq = [] ∧ s.pend = []

/-- R230: reset may be asserted at any time: from every state, with that the host's next move, the next state has every slot
IDLE with H, CNT and BUF zero, as power-on leaves them, DS = WAIT_CMD and both queues empty, and the command in progress has
no response word left. (The count of free values is the model's own, log entry 7.) -/
def Obligations.ResetAtAnyTime : Prop :=
  ∀ (s : State) (rest : List HostMove), s.host = .assertReset :: rest →
    ∃ t, step s = .next t ∧ t.nctx = s.nctx ∧
      (∀ j, j < t.nctx → ∃ sl, t.slots[j]? = some sl ∧ sl.ph = .idle ∧ sl.h = ⟨0, 0, 0, 0⟩ ∧ sl.cnt = 0 ∧
        sl.buf = Vector.replicate 64 0 ∧ (State.resetWith s.config).slots[j]? = some { sl with draws := 0 }) ∧
      t.ds = .waitCmd ∧ t.cq = [] ∧ t.rq = [] ∧ t.pend = [] ∧ t.got = s.got ∧ t.host = rest

/-- 70_reset_and_hazards 1 (R230, R232): a word the host writes while reset is asserted is discarded, one written right after
the host asserts it among them; the first word written after reset is released is decoded as a command word. That reset stays
asserted until a move of its own releases it, and that this move changes nothing else, is the model's (log entry 11). -/
def Obligations.ResetRelease : Prop :=
  (∀ (s : State) (w : Word) (rest : List HostMove), s.rst = true → s.host = .write w :: rest →
    step s = .next { s with host := rest }) ∧
  (∀ (s : State) (w : Word) (rest : List HostMove), s.host = .assertReset :: .write w :: rest →
    ∃ t u, step s = .next t ∧ t.rst = true ∧ step t = .next u ∧ u.rst = true ∧ u.cq = [] ∧ u.host = rest) ∧
  (∀ (s : State) (rest : List HostMove), s.host = .releaseReset :: rest → step s = .next { s with rst := false, host := rest }) ∧
  (∀ (s : State) (w : Word), Inv s → s.rst = true → s.host = [.releaseReset, .write w] →
    ∃ t u, step s = .next t ∧ step t = .next u ∧ step u = runWord w { u with cq := [] } ∧ u.ds = .waitCmd)

/-- 10_state 4 and 70_reset_and_hazards 3 and 5 (R32, R237, R242): the host's moves on the queues. A word written goes to the
end of CQ, or the host holds while CQ is full; a read takes the oldest word of RQ, or the host holds while RQ is empty; while
the host holds, the engine steps. -/
def Obligations.HostMovesOnTheQueues : Prop :=
  ∀ (s : State) (rest : List HostMove), s.rst = false →
    (∀ w, s.host = .write w :: rest →
      (s.cq.length < s.cqDepth → step s = .next { s with host := rest, cq := s.cq ++ [w] }) ∧
      (s.cqDepth ≤ s.cq.length → step s = engineStep s)) ∧
    (s.host = .read :: rest →
      (∀ w q, s.rq = w :: q → step s = .next { s with host := rest, rq := q, got := s.got ++ [w] }) ∧
      (s.rq = [] → step s = engineStep s))

/-- 10_state 4 (R32) and 70_reset_and_hazards 3 (R237): once RQ has room again, the next step appends the words held back, in
order and as many as fit, and no command is taken before. -/
def Obligations.HeldResponsesDrainFirst : Prop :=
  ∀ s : State, s.host = [] → s.rst = false → s.pend ≠ [] → s.rq.length < s.rspDepth →
    ∃ t, step s = .next t ∧ out t = out s ∧ t.rq = (out s).take s.rspDepth ∧ t.ds = s.ds ∧ t.cq = s.cq ∧
      t.slots = s.slots

/-- The invariant `Inv` (10_state R10's ranges, R22, R31, R32, R37, R177, R181, 70 R230) is kept by every step of engine and
host. -/
def Obligations.InvariantIsKept : Prop :=
  ∀ s t : State, Inv s → step s = .next t → Inv t

/-- `Inv` holds after reset, for every legal choice of the parameters, and so for `State.reset`, whose parameters are the
model's choice (log entry 2). -/
def Obligations.InvariantHoldsAtReset : Prop :=
  (∀ c : Config, c.Valid → Inv (State.resetWith c)) ∧ Inv State.reset

/-- 10_state 6 (R36, which the spec derives): every FRESH slot holds the empty message and every ABSORBING slot a message of at
least one byte, CNT, H and the first OCC bytes of BUF being what that message gives; every step keeps it. -/
def Obligations.SlotsAlwaysHoldMessages : Prop :=
  (∀ c : Config, MessagesHeld (State.resetWith c)) ∧
  ∀ s t : State, MessagesHeld s → step s = .next t → MessagesHeld t
end

