-- ==== Sys2Proof/Laws/State.lean ====
section
/-!
SUPPORT. The small lemmas of every update of State and Slot: one per field, true by unfolding once, so that no later proof
unfolds a record update.
-/

namespace Sys2Proof.Machine

section SetSlot
variable (c : Nat) (sl : Slot) (s : State)

@[simp] theorem setSlot_slots : (setSlot c sl s).slots = s.slots.set c sl := rfl
@[simp] theorem setSlot_ds : (setSlot c sl s).ds = s.ds := rfl
@[simp] theorem setSlot_cq : (setSlot c sl s).cq = s.cq := rfl
@[simp] theorem setSlot_rq : (setSlot c sl s).rq = s.rq := rfl
@[simp] theorem setSlot_pend : (setSlot c sl s).pend = s.pend := rfl
@[simp] theorem setSlot_rspDepth : (setSlot c sl s).rspDepth = s.rspDepth := rfl
@[simp] theorem setSlot_cqDepth : (setSlot c sl s).cqDepth = s.cqDepth := rfl
@[simp] theorem setSlot_rst : (setSlot c sl s).rst = s.rst := rfl
@[simp] theorem setSlot_host : (setSlot c sl s).host = s.host := rfl
@[simp] theorem setSlot_got : (setSlot c sl s).got = s.got := rfl
@[simp] theorem setSlot_out : out (setSlot c sl s) = out s := rfl

end SetSlot

section Drain
variable (s : State)

@[simp] theorem drain_slots : (drain s).slots = s.slots := rfl
@[simp] theorem drain_ds : (drain s).ds = s.ds := rfl
@[simp] theorem drain_cq : (drain s).cq = s.cq := rfl
@[simp] theorem drain_rspDepth : (drain s).rspDepth = s.rspDepth := rfl
@[simp] theorem drain_cqDepth : (drain s).cqDepth = s.cqDepth := rfl
@[simp] theorem drain_rst : (drain s).rst = s.rst := rfl
@[simp] theorem drain_host : (drain s).host = s.host := rfl
@[simp] theorem drain_got : (drain s).got = s.got := rfl

end Drain

section Respond
variable (ws : List Word) (s : State)

@[simp] theorem respond_slots : (respond ws s).slots = s.slots := rfl
@[simp] theorem respond_ds : (respond ws s).ds = s.ds := rfl
@[simp] theorem respond_cq : (respond ws s).cq = s.cq := rfl
@[simp] theorem respond_rspDepth : (respond ws s).rspDepth = s.rspDepth := rfl
@[simp] theorem respond_cqDepth : (respond ws s).cqDepth = s.cqDepth := rfl
@[simp] theorem respond_rst : (respond ws s).rst = s.rst := rfl
@[simp] theorem respond_host : (respond ws s).host = s.host := rfl
@[simp] theorem respond_got : (respond ws s).got = s.got := rfl

end Respond

section Complete
variable (op : Byte) (cid : Nat) (e : Err) (digest : List Word) (s : State)

@[simp] theorem complete_slots : (complete op cid e digest s).slots = s.slots := rfl
@[simp] theorem complete_ds : (complete op cid e digest s).ds = .waitCmd := rfl
@[simp] theorem complete_cq : (complete op cid e digest s).cq = s.cq := rfl
@[simp] theorem complete_rspDepth : (complete op cid e digest s).rspDepth = s.rspDepth := rfl
@[simp] theorem complete_cqDepth : (complete op cid e digest s).cqDepth = s.cqDepth := rfl
@[simp] theorem complete_rst : (complete op cid e digest s).rst = s.rst := rfl
@[simp] theorem complete_host : (complete op cid e digest s).host = s.host := rfl
@[simp] theorem complete_got : (complete op cid e digest s).got = s.got := rfl

end Complete

section AssertReset
variable (s : State)

@[simp] theorem assertReset_slots : (assertReset s).slots = s.slots.map resetSlot := rfl
@[simp] theorem assertReset_ds : (assertReset s).ds = .waitCmd := rfl
@[simp] theorem assertReset_cq : (assertReset s).cq = [] := rfl
@[simp] theorem assertReset_rq : (assertReset s).rq = [] := rfl
@[simp] theorem assertReset_pend : (assertReset s).pend = [] := rfl
@[simp] theorem assertReset_rspDepth : (assertReset s).rspDepth = s.rspDepth := rfl
@[simp] theorem assertReset_cqDepth : (assertReset s).cqDepth = s.cqDepth := rfl
@[simp] theorem assertReset_rst : (assertReset s).rst = true := rfl
@[simp] theorem assertReset_host : (assertReset s).host = s.host := rfl
@[simp] theorem assertReset_got : (assertReset s).got = s.got := rfl

end AssertReset

section Slots
variable (sl : Slot)

@[simp] theorem createContext_ph : (createContext sl).ph = .fresh := rfl
@[simp] theorem createContext_h : (createContext sl).h = iv := rfl
@[simp] theorem createContext_cnt : (createContext sl).cnt = 0 := rfl
@[simp] theorem createContext_buf : (createContext sl).buf = sl.buf := rfl
@[simp] theorem createContext_draws : (createContext sl).draws = sl.draws := rfl
@[simp] theorem zeroize_ph : (zeroize sl).ph = .idle := rfl
@[simp] theorem zeroize_h : (zeroize sl).h = ⟨0, 0, 0, 0⟩ := rfl
@[simp] theorem zeroize_cnt : (zeroize sl).cnt = 0 := rfl
@[simp] theorem zeroize_buf : (zeroize sl).buf = Vector.replicate 64 0 := rfl
@[simp] theorem zeroize_draws : (zeroize sl).draws = sl.draws := rfl
@[simp] theorem resetSlot_ph : (resetSlot sl).ph = .idle := rfl
@[simp] theorem resetSlot_h : (resetSlot sl).h = ⟨0, 0, 0, 0⟩ := rfl
@[simp] theorem resetSlot_cnt : (resetSlot sl).cnt = 0 := rfl
@[simp] theorem resetSlot_buf : (resetSlot sl).buf = Vector.replicate 64 0 := rfl
@[simp] theorem resetSlot_draws : (resetSlot sl).draws = sl.draws := rfl

end Slots

end Sys2Proof.Machine
end

