-- ==== Sys2Proof/Laws/Ops.lean ====
section
/-!
SUPPORT. What each shared operation can do, said once: the response queue, absorbing bytes, taking a payload. Proofs about the
commands cite these and unfold no operation.
-/

namespace Sys2Proof.Machine

/-! ## Responses -/

/-- Draining moves words from `pend` to RQ; their sequence is the same. -/
@[simp] theorem out_drain (s : State) : out (drain s) = out s := by
  simp [out, drain, List.append_assoc]

/-- `respond` appends its words at the end of the response sequence. -/
@[simp] theorem out_respond (ws : List Word) (s : State) : out (respond ws s) = out s ++ ws := by
  rw [respond, out_drain]; simp [out]

/-- RQ after `respond`: the response sequence as far as RQ has room. -/
theorem respond_rq (ws : List Word) (s : State) (h : s.rq.length ≤ s.rspDepth) :
    (respond ws s).rq = (out s ++ ws).take s.rspDepth := by
  simp [respond, drain, out, List.take_append, List.take_of_length_le h, Nat.sub_sub]

/-- What `respond` holds back: the words RQ has no room for. -/
theorem respond_pend (ws : List Word) (s : State) :
    (respond ws s).pend = (s.pend ++ ws).drop (s.rspDepth - s.rq.length) := rfl

/-- With room for all its words, `respond` appends them to RQ and holds nothing back. -/
theorem respond_room (ws : List Word) (s : State) (hp : s.pend = []) (h : s.rq.length + ws.length ≤ s.rspDepth) :
    (respond ws s).rq = s.rq ++ ws ∧ (respond ws s).pend = [] := by
  have h1 : ws.length ≤ s.rspDepth - s.rq.length := by omega
  exact ⟨by simp [respond, drain, hp, List.take_of_length_le h1], by simp [respond_pend, hp, List.drop_eq_nil_of_le h1]⟩

/-- The status word depends on the slots alone. -/
theorem status_congr (op : Byte) (cid : Nat) (e : Err) {s t : State} (h : s.slots[cid]? = t.slots[cid]?) :
    status op cid e s = status op cid e t := by
  simp only [status, h]

/-- The end of a command appends its status word and digest words. -/
@[simp] theorem out_complete (op : Byte) (cid : Nat) (e : Err) (digest : List Word) (s : State) :
    out (complete op cid e digest s) = out s ++ status op cid e s :: digest := by
  rw [complete, out_respond]; rfl

/-- `raise E` is the end of a command without digest words (R205). -/
theorem raiseErr_eq (op : Byte) (cid : Nat) (e : Err) (s : State) : raiseErr op cid e s = complete op cid e [] s := rfl

/-! ## Absorbing bytes -/

/-- OCC is `CNT mod 64` (R26). -/
@[simp] theorem occ_toNat (sl : Slot) : (occ sl).toNat = sl.cnt.toNat % 64 := by
  simp [occ]

@[simp] theorem bufIndex_eq (sl : Slot) : bufIndex sl = sl.cnt.toNat % 64 := occ_toNat sl

/-- Absorbing a byte that does not fill the buffer stores it and counts it. -/
theorem absorb_of_partial (c : Nat) (sl : Slot) (b : Byte) (h : sl.cnt.toNat % 64 ≠ 63) :
    absorb c sl b = { sl with cnt := sl.cnt + 1, buf := sl.buf.setIfInBounds (sl.cnt.toNat % 64) b } := by
  simp [absorb, h]

/-- Absorbing the byte that fills the buffer compresses the block and leaves the buffer unspecified. -/
theorem absorb_of_full (c : Nat) (sl : Slot) (b : Byte) (h : sl.cnt.toNat % 64 = 63) :
    absorb c sl b =
      { sl with
        h := compress sl.h (sl.buf.setIfInBounds 63 b)
        cnt := sl.cnt + 1
        buf := staleBuf c sl.draws
        draws := sl.draws + 1 } := by
  simp [absorb, h]

@[simp] theorem absorb_cnt (c : Nat) (sl : Slot) (b : Byte) : (absorb c sl b).cnt = sl.cnt + 1 := by
  unfold absorb; split <;> rfl

@[simp] theorem absorb_ph (c : Nat) (sl : Slot) (b : Byte) : (absorb c sl b).ph = sl.ph := by
  unfold absorb; split <;> rfl

@[simp] theorem absorbAll_nil (c : Nat) (sl : Slot) : absorbAll c sl [] = sl := rfl

@[simp] theorem absorbAll_cons (c : Nat) (sl : Slot) (b : Byte) (bs : List Byte) :
    absorbAll c sl (b :: bs) = absorbAll c (absorb c sl b) bs := rfl

theorem absorbAll_append (c : Nat) (sl : Slot) (as bs : List Byte) :
    absorbAll c sl (as ++ bs) = absorbAll c (absorbAll c sl as) bs := List.foldl_append ..

@[simp] theorem absorbAll_ph (c : Nat) (sl : Slot) (bs : List Byte) : (absorbAll c sl bs).ph = sl.ph := by
  induction bs generalizing sl with
  | nil => rfl
  | cons b bs ih => simp [ih]

/-- The phase of the slot absorbed into does not matter to what is absorbed. -/
theorem absorb_withPh (c : Nat) (sl : Slot) (p : Phase) (b : Byte) :
    absorb c { sl with ph := p } b = { absorb c sl b with ph := p } := by
  unfold absorb; simp only [bufIndex_eq]; split <;> rfl

theorem absorbAll_withPh (c : Nat) (sl : Slot) (p : Phase) (bs : List Byte) :
    absorbAll c { sl with ph := p } bs = { absorbAll c sl bs with ph := p } := by
  induction bs generalizing sl with
  | nil => rfl
  | cons b bs ih => rw [absorbAll_cons, absorb_withPh, ih]; rfl

/-- Adding to a 64-bit counter adds to the occupancy modulo 64, the counter's wrap included (R142). -/
theorem count_add_mod (x : Count) (n : Nat) :
    (x + BitVec.ofNat 64 n).toNat % 64 = (x.toNat + n) % 64 := by
  simp only [BitVec.toNat_add, BitVec.toNat_ofNat]; omega

/-! ## Taking a payload -/

theorem payloadWords_eq (n : Nat) : payloadWords n = (n + 3) / 4 := rfl

/-- Too few words in CQ: the engine takes them and waits in PAYLOAD (R236). -/
theorem collect_of_short (op : PayloadOp) (perform : Nat → Nat → List Word → State → State) (cid n : Nat)
    (taken : List Word) (s : State) (h : s.cq.length < payloadWords n - taken.length) :
    collect op perform cid n taken s = { s with cq := [], ds := .payload op cid n (taken ++ s.cq) } := by
  simp [collect, h, List.take_of_length_le (Nat.le_of_lt h), List.drop_eq_nil_of_le (Nat.le_of_lt h)]

/-- All the words in CQ: the command is performed on its payload (R77). -/
theorem collect_of_enough (op : PayloadOp) (perform : Nat → Nat → List Word → State → State) (cid n : Nat)
    (taken : List Word) (s : State) (h : payloadWords n - taken.length ≤ s.cq.length) :
    collect op perform cid n taken s =
      perform cid n (taken ++ s.cq.take (payloadWords n - taken.length))
        { s with cq := s.cq.drop (payloadWords n - taken.length) } := by
  simp [collect, Nat.not_lt.mpr h]

/-- Four payload bytes a word. -/
@[simp] theorem payloadBytes_length (ws : List Word) : (payloadBytes ws).length = 4 * ws.length := by
  induction ws with
  | nil => rfl
  | cons w ws ih => simp only [payloadBytes, List.flatMap_cons, List.length_append] at ih ⊢; rw [ih]; simp [le32bytes]; omega

@[simp] theorem span_length (n : Nat) (ws : List Word) : (span n ws).length = min n (4 * ws.length) := by
  simp [span]

/-! ## A command always has a next state -/

/-- No meaning stops: `exec` answers a next state on every command and state. -/
theorem exec_next (i : Instr) (s : State) : ∃ t, exec i s = .next t := by
  cases i <;> exact ⟨_, rfl⟩

end Sys2Proof.Machine
end

