-- ==== Sys2Proof/Laws/Commands.lean ====
section
/-!
SUPPORT. Everything a command can do, said once: with all its payload words in CQ it is performed and answered, without them
it waits; and everything a step can do. Proofs over all commands or all steps cite these and unfold no meaning.
-/

namespace Sys2Proof.Machine

/-- The slot a command leaves when it raises no error, its payload words being `ws`. -/
def resultSlot (i : Instr) (ws : List Word) (sl : Slot) : Slot :=
  match i with
  | .init _ => createContext sl
  | .feed cid n => feedSlot cid n sl (span n ws)
  | .final cid => { finalizeSlot cid sl with ph := .finalized }
  | .digest cid n => zeroize (digestSlot cid sl (span n ws))

/-- The digest words of a command that raises no error. -/
def resultDigest (i : Instr) (ws : List Word) (sl : Slot) : List Word :=
  match i with
  | .init _ => []
  | .feed _ _ => []
  | .final cid => digestWords (finalizeSlot cid sl).h
  | .digest cid n => digestWords (digestSlot cid sl (span n ws)).h

/-- The whole effect of a command on a state whose payload words `ws` have been taken: its checks in the order of R208,
then its result. -/
def performed (i : Instr) (ws : List Word) (s : State) : State :=
  match s.slots[i.cid]? with
  | none => complete i.opcode i.cid .badCid [] s
  | some sl =>
    match phaseTable i sl.ph with
    | .error e => complete i.opcode i.cid e [] s
    | .ok _ => complete i.opcode i.cid .ok (resultDigest i ws sl) (setSlot i.cid (resultSlot i ws sl) s)

/-- FEED's performance, as one case of `performed`. -/
theorem performFeed_eq (cid n : Nat) (ws : List Word) (s : State) :
    performFeed cid n ws s = performed (.feed cid n) ws s := by
  cases h : s.slots[cid]? with
  | none => simp only [performFeed, performed, Instr.cid, h]; rfl
  | some sl => cases hp : sl.ph <;> simp only [performFeed, performed, Instr.cid, phaseTable, h, hp] <;> rfl

/-- DIGEST's performance, as one case of `performed`. -/
theorem performDigest_eq (cid n : Nat) (ws : List Word) (s : State) :
    performDigest cid n ws s = performed (.digest cid n) ws s := by
  cases h : s.slots[cid]? with
  | none => simp only [performDigest, performed, Instr.cid, h]; rfl
  | some sl => simp only [performDigest, performed, Instr.cid, phaseTable, h]; rfl

/-- INIT's meaning, as one case of `performed`. -/
theorem execInit_eq (cid : Nat) (s : State) : exec (.init cid) s = .next (performed (.init cid) [] s) := by
  cases h : s.slots[cid]? <;> simp only [exec, execInit, performed, Instr.cid, phaseTable, h] <;> rfl

/-- FINAL's meaning, as one case of `performed`. -/
theorem execFinal_eq (cid : Nat) (s : State) : exec (.final cid) s = .next (performed (.final cid) [] s) := by
  cases h : s.slots[cid]? with
  | none => simp only [exec, execFinal, performed, Instr.cid, h]; rfl
  | some sl => cases hp : sl.ph <;> simp only [exec, execFinal, performed, Instr.cid, phaseTable, h, hp] <;> rfl

/-- A command with its payload words at the head of CQ takes them and is performed. -/
theorem exec_of_enough (i : Instr) (s : State) (h : i.payload ≤ s.cq.length) :
    exec i s = .next (performed i (s.cq.take i.payload) { s with cq := s.cq.drop i.payload }) := by
  cases i with
  | init cid => exact execInit_eq cid s
  | final cid => exact execFinal_eq cid s
  | feed cid n =>
    show Host.Outcome.next (collect .feed performFeed cid n [] s) = _
    rw [collect_of_enough .feed performFeed cid n [] s h, performFeed_eq]; rfl
  | digest cid n =>
    show Host.Outcome.next (collect .digest performDigest cid n [] s) = _
    rw [collect_of_enough .digest performDigest cid n [] s h, performDigest_eq]; rfl

/-- A command whose payload words are `ws`, at the head of CQ. -/
theorem exec_framed (i : Instr) (s : State) (ws rest : List Word) (h : ws.length = i.payload) :
    exec i { s with cq := ws ++ rest } = .next (performed i ws { s with cq := rest }) := by
  rw [exec_of_enough i _ (by simp [← h])]
  simp [← h]

/-- The FEED or DIGEST that PAYLOAD(op, c, n, k) is in the middle of. -/
def payloadInstr (op : PayloadOp) (cid n : Nat) : Instr :=
  match op with
  | .feed => .feed cid n
  | .digest => .digest cid n

theorem payloadInstr_payload (op : PayloadOp) (cid n : Nat) : (payloadInstr op cid n).payload = payloadWords n := by
  cases op <;> rfl

/-- A command that finds too few payload words takes those there are and waits for the others (R236). -/
theorem exec_of_short (i : Instr) (s : State) (h : s.cq.length < i.payload) :
    ∃ op, i = payloadInstr op i.cid i.count ∧
      exec i s = .next { s with cq := [], ds := .payload op i.cid i.count s.cq } := by
  cases i with
  | init cid => exact absurd h (Nat.not_lt_zero _)
  | final cid => exact absurd h (Nat.not_lt_zero _)
  | feed cid n =>
    exact ⟨.feed, rfl, congrArg Host.Outcome.next (collect_of_short .feed performFeed cid n [] s h)⟩
  | digest cid n =>
    exact ⟨.digest, rfl, congrArg Host.Outcome.next (collect_of_short .digest performDigest cid n [] s h)⟩

/-- Going on with a payload: too few words still. -/
theorem resume_of_short (op : PayloadOp) (cid n : Nat) (taken : List Word) (s : State)
    (h : s.cq.length < payloadWords n - taken.length) :
    resume op cid n taken s = { s with cq := [], ds := .payload op cid n (taken ++ s.cq) } := by
  cases op <;> exact collect_of_short _ _ _ _ _ _ h

/-- Going on with a payload: its last words are there, and the command is performed. -/
theorem resume_of_enough (op : PayloadOp) (cid n : Nat) (taken : List Word) (s : State)
    (h : payloadWords n - taken.length ≤ s.cq.length) :
    resume op cid n taken s =
      performed (payloadInstr op cid n) (taken ++ s.cq.take (payloadWords n - taken.length))
        { s with cq := s.cq.drop (payloadWords n - taken.length) } := by
  cases op <;> simp only [resume, payloadInstr, collect_of_enough _ _ _ _ _ _ h, performFeed_eq, performDigest_eq]

/-! ## What a performed command leaves -/

/-- Whatever it does, a performed command appends its status word, and digest words or none, and waits for a command word;
its slot is the only one it may write. -/
theorem performed_cases (i : Instr) (ws : List Word) (s : State) :
    (s.slots[i.cid]? = none ∧ performed i ws s = complete i.opcode i.cid .badCid [] s) ∨
    (∃ sl e, s.slots[i.cid]? = some sl ∧ phaseTable i sl.ph = .error e ∧
      performed i ws s = complete i.opcode i.cid e [] s) ∨
    (∃ sl p, s.slots[i.cid]? = some sl ∧ phaseTable i sl.ph = .ok p ∧
      performed i ws s =
        complete i.opcode i.cid .ok (resultDigest i ws sl) (setSlot i.cid (resultSlot i ws sl) s)) := by
  unfold performed
  cases h : s.slots[i.cid]? with
  | none => exact .inl ⟨rfl, rfl⟩
  | some sl =>
    cases hp : phaseTable i sl.ph with
    | error e => exact .inr (.inl ⟨sl, e, rfl, hp, by simp [hp]⟩)
    | ok p => exact .inr (.inr ⟨sl, p, rfl, hp, by simp [hp]⟩)

section Performed
variable (i : Instr) (ws : List Word) (s : State)

@[simp] theorem performed_ds : (performed i ws s).ds = .waitCmd := by
  rcases performed_cases i ws s with ⟨_, h⟩ | ⟨_, _, _, _, h⟩ | ⟨_, _, _, _, h⟩ <;> simp [h]

@[simp] theorem performed_cq : (performed i ws s).cq = s.cq := by
  rcases performed_cases i ws s with ⟨_, h⟩ | ⟨_, _, _, _, h⟩ | ⟨_, _, _, _, h⟩ <;> simp [h]

@[simp] theorem performed_rspDepth : (performed i ws s).rspDepth = s.rspDepth := by
  rcases performed_cases i ws s with ⟨_, h⟩ | ⟨_, _, _, _, h⟩ | ⟨_, _, _, _, h⟩ <;> simp [h]

@[simp] theorem performed_cqDepth : (performed i ws s).cqDepth = s.cqDepth := by
  rcases performed_cases i ws s with ⟨_, h⟩ | ⟨_, _, _, _, h⟩ | ⟨_, _, _, _, h⟩ <;> simp [h]

@[simp] theorem performed_rst : (performed i ws s).rst = s.rst := by
  rcases performed_cases i ws s with ⟨_, h⟩ | ⟨_, _, _, _, h⟩ | ⟨_, _, _, _, h⟩ <;> simp [h]

@[simp] theorem performed_host : (performed i ws s).host = s.host := by
  rcases performed_cases i ws s with ⟨_, h⟩ | ⟨_, _, _, _, h⟩ | ⟨_, _, _, _, h⟩ <;> simp [h]

@[simp] theorem performed_got : (performed i ws s).got = s.got := by
  rcases performed_cases i ws s with ⟨_, h⟩ | ⟨_, _, _, _, h⟩ | ⟨_, _, _, _, h⟩ <;> simp [h]

@[simp] theorem performed_slots_length : (performed i ws s).slots.length = s.slots.length := by
  rcases performed_cases i ws s with ⟨_, h⟩ | ⟨_, _, _, _, h⟩ | ⟨_, _, _, _, h⟩ <;> simp [h]

/-- Every other slot is as it was (R28). -/
theorem performed_other (j : Nat) (hj : j ≠ i.cid) : (performed i ws s).slots[j]? = s.slots[j]? := by
  rcases performed_cases i ws s with ⟨_, h⟩ | ⟨_, _, _, _, h⟩ | ⟨_, _, _, _, h⟩ <;>
    simp [h, List.getElem?_set_ne hj.symm]

/-- A performed command leaves alone what it does not name. -/
theorem performed_sameOutside : SameOutside i.cid s (performed i ws s) :=
  ⟨performed_other i ws s, performed_slots_length i ws s, performed_rspDepth i ws s, performed_cqDepth i ws s,
    performed_rst i ws s, performed_host i ws s, performed_got i ws s⟩

end Performed

/-! ## Everything a step can do -/

/-- What the engine did in a step that answered `t` (R9, R14, R31, R32). -/
inductive EngineDid (s t : State) : Prop where
  | drained (h : s.pend ≠ []) (e : t = drain s)
  | ran (w : Word) (rest : List Word) (i : Instr) (h : s.pend = []) (hd : s.ds = .waitCmd) (hq : s.cq = w :: rest)
      (hw : decode w = .instr i) (e : exec i { s with cq := rest } = .next t)
  | reported (w : Word) (rest : List Word) (why : Illegal) (h : s.pend = []) (hd : s.ds = .waitCmd)
      (hq : s.cq = w :: rest) (hw : decode w = .illegal why)
      (e : t = raiseErr (opField w) (cidField w).toNat .illegal { s with cq := rest })
  | resumed (op : PayloadOp) (cid n : Nat) (taken : List Word) (h : s.pend = []) (hd : s.ds = .payload op cid n taken)
      (hq : s.cq ≠ []) (e : t = resume op cid n taken s)

/-- `rqFull` says that RQ holds RSP_DEPTH words. -/
@[simp] theorem rqFull_eq_true (s : State) : rqFull s = true ↔ s.rspDepth ≤ s.rq.length := by simp [rqFull]

@[simp] theorem rqFull_eq_false (s : State) : rqFull s = false ↔ s.rq.length < s.rspDepth := by simp [rqFull]

/-- The engine's step out of reset and with room in RQ: what its decoder state and the words at hand ask for. -/
theorem engineStep_of_room (s : State) (hr : s.rst = false) (room : s.rq.length < s.rspDepth) :
    engineStep s =
      match s.pend, s.ds, s.cq with
      | _ :: _, _, _ => .next (drain s)
      | [], .waitCmd, [] => .fault .waitCommand
      | [], .waitCmd, w :: rest => runWord w { s with cq := rest }
      | [], .payload _ _ _ _, [] => .fault .waitPayload
      | [], .payload op cid n taken, _ :: _ => .next (resume op cid n taken s) := by
  simp only [engineStep, hr, (rqFull_eq_false s).2 room, Bool.false_eq_true, if_false]
  cases s.pend <;> cases s.ds <;> cases s.cq <;> rfl

/-- A full RQ holds the engine, whatever else there is to do (R32). -/
theorem engineStep_of_full (s : State) (hr : s.rst = false) (full : s.rspDepth ≤ s.rq.length) :
    engineStep s = .fault .waitResponse := by
  simp [engineStep, hr, full]

/-- A step of the engine is one of four things, and never happens in reset or while RQ is full (R32). -/
theorem engineStep_cases {s t : State} (h : engineStep s = .next t) :
    s.rst = false ∧ s.rq.length < s.rspDepth ∧ EngineDid s t := by
  unfold engineStep at h
  cases hr : s.rst with
  | true => simp [hr] at h
  | false =>
    cases hf : rqFull s with
    | true => simp [hr, hf] at h
    | false =>
      refine ⟨rfl, (rqFull_eq_false s).1 hf, ?_⟩
      simp only [hr, hf, Bool.false_eq_true, ↓reduceIte] at h
      cases hp : s.pend with
      | cons w ws =>
        simp only [hp] at h
        exact .drained (by simp [hp]) (by injection h with h; exact h.symm)
      | nil =>
        simp only [hp] at h
        cases hd : s.ds with
        | waitCmd =>
          cases hq : s.cq with
          | nil => simp [hd, hq] at h
          | cons w rest =>
            simp only [hd, hq, runWord] at h
            cases hw : decode w with
            | instr i => simp only [hw] at h; exact .ran w rest i hp hd hq hw (by rw [hd, hp, hr]; exact h)
            | illegal why =>
              simp only [hw] at h
              exact .reported w rest why hp hd hq hw (by injection h with h; rw [hd, hp, hr]; exact h.symm)
        | payload op cid n taken =>
          cases hq : s.cq with
          | nil => simp [hd, hq] at h
          | cons w rest =>
            simp only [hd, hq] at h
            refine .resumed op cid n taken hp hd (by simp [hq]) ?_
            injection h with h; rw [← h]

/-- A step of the machine is a move of the host, its giving the engine a turn, or a step of the engine. -/
theorem step_cases {s t : State} (h : step s = .next t) :
    (∃ m rest, s.host = m :: rest ∧ m ≠ .letEngine ∧ hostMove m { s with host := rest } = some t) ∨
    (∃ rest, s.host = .letEngine :: rest ∧ t = engineTurn { s with host := rest }) ∨
    engineStep s = .next t := by
  unfold step agentStep at h
  cases hh : s.host with
  | nil => simp only [hh] at h; exact .inr (.inr h)
  | cons m rest =>
    simp only [hh] at h
    cases m with
    | letEngine => simp only at h; injection h with h; exact .inr (.inl ⟨rest, rfl, h.symm⟩)
    | write w =>
      simp only at h
      cases hm : hostMove (.write w) { s with host := rest } with
      | some u => rw [hm] at h; injection h with h; subst h; exact .inl ⟨_, rest, rfl, by simp, hm⟩
      | none => rw [hm] at h; exact .inr (.inr h)
    | read =>
      simp only at h
      cases hm : hostMove .read { s with host := rest } with
      | some u => rw [hm] at h; injection h with h; subst h; exact .inl ⟨_, rest, rfl, by simp, hm⟩
      | none => rw [hm] at h; exact .inr (.inr h)
    | assertReset =>
      simp only [hostMove] at h; injection h with h; subst h; exact .inl ⟨_, rest, rfl, by simp, rfl⟩
    | releaseReset =>
      simp only [hostMove] at h; injection h with h; subst h; exact .inl ⟨_, rest, rfl, by simp, rfl⟩

/-! ## Runs -/

/-- What holds of a state and is kept by every step holds of every later state of its run. -/
theorem reaches_induction {P : State → Prop} (keep : ∀ a b, P a → step a = .next b → P b) {s t : State} (h : P s)
    (hr : Reaches s t) : P t := by
  induction hr with
  | here => exact h
  | later _ next ih => exact keep _ _ ih next

/-- A run does not go on from a state whose step stops. -/
theorem reaches_of_fault {s t : State} {f : Fault} (h : step s = .fault f) (hr : Reaches s t) : t = s :=
  reaches_induction (P := (· = s)) (fun _ _ ha hb => by rw [ha, h] at hb; cases hb) rfl hr

end Sys2Proof.Machine
end

