-- ==== Sys2Proof/Laws/PerInstr.lean ====
section
/-!
SUPPORT. The command word of each command, field by field (30_encoding R71): one lemma per constructor of `Instr`.
-/

namespace Sys2Proof.Laws.EncodeFields

/-- The word that encodes a well-formed command has that command's OP, CID and N in the fields of R71. -/
def Statement (i : Instr) : Prop :=
  i.wellFormed = true →
    opField (encode i) = i.opcode ∧ (cidField (encode i)).toNat = i.cid ∧ (nField (encode i)).toNat = i.count

/-- The three fields of a word put together from them. -/
theorem fields (op cid : Byte) (n : BitVec 16) :
    opField (op ++ cid ++ n) = op ∧ cidField (op ++ cid ++ n) = cid ∧ nField (op ++ cid ++ n) = n := by
  refine ⟨?_, ?_, ?_⟩ <;>
  · apply BitVec.eq_of_getLsbD_eq
    intro k hk
    simp only [opField, cidField, nField, BitVec.getLsbD_extractLsb', BitVec.getLsbD_append, hk, decide_true, Bool.true_and]
    interval_cases k <;> rfl

/-- A slot index and a byte count that fit their fields come back from them. -/
theorem of_bounds (i : Instr) (hc : i.cid ≤ 255) (hn : i.count ≤ 65535) :
    opField (encode i) = i.opcode ∧ (cidField (encode i)).toNat = i.cid ∧ (nField (encode i)).toNat = i.count := by
  obtain ⟨h1, h2, h3⟩ := fields i.opcode (BitVec.ofNat 8 i.cid) (BitVec.ofNat 16 i.count)
  refine ⟨h1, ?_, ?_⟩
  · rw [encode, h2, BitVec.toNat_ofNat]; omega
  · rw [encode, h3, BitVec.toNat_ofNat]; omega

theorem init (cid : Nat) : Statement (.init cid) := fun h =>
  of_bounds _ (of_decide_eq_true h) (Nat.zero_le _)

theorem feed (cid n : Nat) : Statement (.feed cid n) := fun h => by
  rw [Instr.wellFormed, Bool.and_eq_true] at h
  exact of_bounds _ (of_decide_eq_true h.1) (of_decide_eq_true h.2)

theorem final (cid : Nat) : Statement (.final cid) := fun h =>
  of_bounds _ (of_decide_eq_true h) (Nat.zero_le _)

theorem digest (cid n : Nat) : Statement (.digest cid n) := fun h => by
  rw [Instr.wellFormed, Bool.and_eq_true] at h
  exact of_bounds _ (of_decide_eq_true h.1) (of_decide_eq_true h.2)

end Sys2Proof.Laws.EncodeFields
end

