-- ==== Sys2Proof/Tests/Slice0.lean ====
section
/-!
SUPPORT. Tests of the model. Every expected value is taken from the spec's own tables (95_test_vectors, 30_encoding R85) or
written out from a rule; each test is about one step, one operation or one word. The last part shows, for every statement
with hypotheses, a state and operands that meet them, with one for each of its clauses.
-/

namespace Sys2Proof.Tests

open Sys2Proof Sys2Proof.Machine

/-! ## Helpers -/

/-- A slot in each phase: as reset leaves it, as INIT leaves it, with "abc" absorbed, and finalized with CNT = 64. -/
def slotIn : Phase → Slot
  | .idle => Slot.reset
  | .fresh => { Slot.reset with ph := .fresh, h := iv }
  | .absorbing =>
    { Slot.reset with ph := .absorbing, h := iv, cnt := 3,
                      buf := (((Vector.replicate 64 0).set 0 0x61).set 1 0x62).set 2 0x63 }
  | .finalized => { Slot.reset with ph := .finalized, h := ⟨1, 2, 3, 4⟩, cnt := 64 }

/-- An engine that waits for a command word, with the given slots and words in CQ and RSP_DEPTH = 5. -/
def eng (sls : List Slot) (cq : List Word) : State :=
  { State.resetWith ⟨0, 5, 16385⟩ with slots := sls, cq := cq }

/-- What a step from `s` leaves, seen through `f`; nothing if it stops. -/
def after {α : Type} (s : State) (f : State → α) : Option α :=
  match step s with
  | .next t => some (f t)
  | .fault _ => none
  | .refused _ => none

/-- The responses of one step. -/
def answers (s : State) : Option (List Word) := after s stream

/-- The fault a step from `s` stops in, if it does. -/
def stop (s : State) : Option Fault :=
  match step s with
  | .next _ => none
  | .fault f => some f
  | .refused _ => none

/-- A digest as 32 hexadecimal digits, byte 0 first. -/
def hex (bs : List Byte) : Nat := bs.foldl (fun a b => a * 256 + b.toNat) 0

/-- A FRESH slot with `n` bytes 0x61 absorbed and finalized: its digest, CNT and number of compressions. -/
def finalOf (n : Nat) : Nat × Nat × Nat :=
  let f := finalizeSlot 0 (absorbAll 0 (slotIn .fresh) (List.replicate n 0x61))
  (hex (digestBytes f.h), f.cnt.toNat, f.draws)

/-! ## Well-formedness: each check refuses an ill-formed command -/

theorem test_wellFormed_refuses :
    (Instr.init 256).wellFormed = false ∧ (Instr.final 256).wellFormed = false ∧
    (Instr.feed 256 0).wellFormed = false ∧ (Instr.feed 0 65536).wellFormed = false ∧
    (Instr.digest 256 0).wellFormed = false ∧ (Instr.digest 0 65536).wellFormed = false := by decide

theorem test_wellFormed_admits :
    (Instr.init 255).wellFormed = true ∧ (Instr.final 255).wellFormed = true ∧
    (Instr.feed 255 65535).wellFormed = true ∧ (Instr.digest 255 65535).wellFormed = true := by decide

/-! ## Decoding and encoding: words written out bit by bit from R75's patterns, R85 and 95 2.4 -/

theorem test_decode_init : decode 0b00000001_00000011_00000000_00000000#32 = .instr (.init 3) := by decide
theorem test_decode_feed : decode 0b00000010_00000001_00000000_00000100#32 = .instr (.feed 1 4) := by decide
theorem test_decode_final : decode 0b00000011_10000001_00000000_00000000#32 = .instr (.final 129) := by decide
theorem test_decode_digest : decode 0b00000100_00000010_10000000_00000001#32 = .instr (.digest 2 32769) := by decide

theorem test_decode_illegal :
    decode 0x00000000 = .illegal .reservedOpcode ∧ decode 0x01FF0001 = .illegal .initCount ∧
    decode 0x03000100 = .illegal .finalCount ∧ decode 0x05000000 = .illegal .reservedOpcode ∧
    decode 0xFF123456 = .illegal .reservedOpcode := by decide

/-- The assembler on the lines of R85. -/
theorem test_assembler :
    asmInit 3 = [0x01030000] ∧ asmFeed 0 [] = [0x02000000] ∧ asmFeed 0 [0x61, 0x62, 0x63] = [0x02000003, 0x00636261] ∧
    asmFeed 1 [0x61, 0x62, 0x63, 0x64] = [0x02010004, 0x64636261] ∧
    asmFeed 0 [0x61, 0x62, 0x63, 0x64, 0x65] = [0x02000005, 0x64636261, 0x00000065] ∧
    asmFinal 0 = [0x03000000] ∧ asmDigest 2 [0x61] = [0x04020001, 0x00000061] ∧
    asmFeedl 0 [] = [0x02000000] := by decide

/-- The number of payload words (95 2.4; P1, P2 and P6). -/
theorem test_payload_words :
    (decode 0x0200FFFF).payload = 16384 ∧ (decode 0x02000000).payload = 0 ∧ (decode 0x0200000D).payload = 4 ∧
    (decode 0x02000005).payload = 2 ∧ (decode 0x01000001).payload = 0 ∧ (decode 0xFF123456).payload = 0 := by decide

theorem test_decodeTableWord :
    decodeTableWord 32 0x01000000 = some (.init 0) ∧ decodeTableWord 32 0x0201FFFF = some (.feed 1 65535) ∧
    decodeTableWord 32 0x03FF0000 = some (.final 255) ∧ decodeTableWord 32 0x04020001 = some (.digest 2 1) ∧
    decodeTableWord 32 0x05000000 = none := by decide

/-! ## The compression function (95 2.1) -/

theorem test_rotl32 :
    rotl32 0x80000001 1 = 0x00000003 ∧ rotl32 0x12345678 7 = 0x1A2B3C09 ∧ rotl32 0x12345678 23 = 0x3C091A2B ∧
    rotl32 0xFFFFFFFF 21 = 0xFFFFFFFF := by decide

theorem test_mixing :
    (f0 0xFFFFFFFF 0 0xAAAAAAAA, f1 0xFFFFFFFF 0 0xAAAAAAAA, f2 0xFFFFFFFF 0 0xAAAAAAAA, f3 0xFFFFFFFF 0 0xAAAAAAAA) =
      (0x00000000, 0xAAAAAAAA, 0x55555555, 0xFFFFFFFF) := by decide

/-- Rows of R107's table, the ends of every phase among them. -/
theorem test_tables :
    [0, 15, 16, 31, 32, 47, 48, 63].map (fun i => (kTab.getD i 0, sTab i, idxTab i, rphase i)) =
      [(0xD76AA478, 7, 0, 0), (0x49B40821, 22, 15, 0), (0xF61E2562, 5, 1, 1), (0x8D2A4C8A, 20, 12, 1),
       (0xFFFA3942, 4, 5, 2), (0xC4AC5665, 23, 2, 2), (0xF4292244, 6, 0, 3), (0xEB86D391, 21, 9, 3)] ∧
    kTab.length = 64 := by decide

/-- The round trace of the empty message's block. -/
theorem test_round_trace :
    [1, 2, 16, 17, 32, 33, 48, 49, 64].map (fun n =>
      rounds (0x80 :: List.replicate 15 0) n ⟨0x67452301, 0xEFCDAB89, 0x98BADCFE, 0x10325476⟩) =
      [⟨0x10325476, 0xA5202774, 0xEFCDAB89, 0x98BADCFE⟩, ⟨0x98BADCFE, 0xF59592DD, 0xA5202774, 0xEFCDAB89⟩,
       ⟨0xF56C7CF1, 0xD6819C6A, 0x5AA53F75, 0x374943A7⟩, ⟨0x374943A7, 0x1C7D7513, 0xD6819C6A, 0x5AA53F75⟩,
       ⟨0x13707036, 0xA2205F1F, 0x1C31C384, 0xAE7813DB⟩, ⟨0xAE7813DB, 0xDF63EAA1, 0xA2205F1F, 0x1C31C384⟩,
       ⟨0x3F55EDFD, 0xCA7D2DBD, 0x68D84EA2, 0x22A31F54⟩, ⟨0x22A31F54, 0x93AA2577, 0xCA7D2DBD, 0x68D84EA2⟩,
       ⟨0x7246FAD3, 0x14E45506, 0xFF4EA3EB, 0x6E10A476⟩] := by decide +kernel

/-! ## Absorbing, padding and finalization (95 2.2, 2.3) -/

/-- The carry into the high half of CNT, and its wrap; each completes a block (R142). -/
theorem test_counter_carry :
    (absorb 0 { slotIn .absorbing with cnt := 0xFFFFFFFF, buf := Vector.replicate 64 0x61 } 0x61).cnt = 0x0000000100000000 ∧
    (absorb 0 { slotIn .absorbing with cnt := 0xFFFFFFFFFFFFFFFF } 0x61).cnt = 0 ∧
    (absorb 0 { slotIn .absorbing with cnt := 0xFFFFFFFF, buf := Vector.replicate 64 0x61 } 0x61).h =
      ⟨0x89D4FF56, 0x125CD962, 0x69CADE33, 0x0033E325⟩ := by decide +kernel

/-- Length fields of R173's table. -/
theorem test_length_field :
    le64bytes (bitCount 3) = [0x18, 0, 0, 0, 0, 0, 0, 0] ∧ le64bytes (bitCount 55) = [0xB8, 0x01, 0, 0, 0, 0, 0, 0] ∧
    le64bytes (bitCount 0x20000000) = [0, 0, 0, 0, 1, 0, 0, 0] ∧
    le64bytes (bitCount 0x2000000000000000) = [0, 0, 0, 0, 0, 0, 0, 0] ∧
    le64bytes (bitCount 0x2000000000000001) = [8, 0, 0, 0, 0, 0, 0, 0] ∧
    le64bytes (bitCount 0xFFFFFFFFFFFFFFFF) = [0xF8, 0xFF, 0xFF, 0xFF, 0xFF, 0xFF, 0xFF, 0xFF] := by decide

theorem test_padding_lengths :
    [0, 1, 54, 55, 56, 57, 63, 64, 119, 120].map (fun l => padCount l) = [56, 55, 2, 1, 64, 63, 57, 56, 1, 64] := by decide

/-- The table of 95 2.3: digest, CNT after FINAL, and all compressions. -/
theorem test_final_short :
    finalOf 0 = (0xd41d8cd98f00b204e9800998ecf8427e, 64, 1) ∧ finalOf 1 = (0x0cc175b9c0f1b6a831c399e269772661, 64, 1) ∧
    finalOf 54 = (0xeced9e0b81ef2bba605cbc5e2e76a1d0, 64, 1) ∧ finalOf 55 = (0xef1772b6dff9a122358552954ad0df65, 64, 1) ∧
    finalOf 56 = (0x3b0c8ac703f828b04c6c197006d17218, 128, 2) ∧
    finalOf 57 = (0x652b906d60af96844ebd21b674f35e93, 128, 2) := by decide +kernel

theorem test_final_long :
    finalOf 63 = (0xb06521f39153d618550606be297466d5, 128, 2) ∧ finalOf 64 = (0x014842d480b571495a4a0363793f7367, 128, 2) ∧
    finalOf 65 = (0xc743a45e0d2e6a95cb859adae0248435, 128, 2) ∧
    finalOf 119 = (0x8a7bd0732ed6a28ce75f6dabc90e1613, 128, 2) ∧
    finalOf 120 = (0x5f61c0ccad4cac44c75ff505e1f1e537, 192, 3) ∧
    finalOf 128 = (0xe510683b3f5ffe4093d021808bc6ff70, 192, 3) := by decide +kernel

/-- The truncation corner of 95 2.3: CNT = 2^61 finalizes as the empty message. -/
theorem test_truncated_length :
    hex (digestBytes (finalizeSlot 0 { slotIn .absorbing with cnt := 0x2000000000000000 }).h) =
      0xd41d8cd98f00b204e9800998ecf8427e ∧
    (finalizeSlot 0 { slotIn .absorbing with cnt := 0x2000000000000000 }).cnt = 0x2000000000000040 := by decide +kernel

/-! ## The commands (95 2.2, 2.3) -/

theorem test_init :
    after (eng [slotIn .idle] [0x01000000]) (fun t => (t.rq, t.slots.map fun x => (x.ph, x.h, x.cnt))) =
      some ([0x01000100], [(.fresh, ⟨0x67452301, 0xEFCDAB89, 0x98BADCFE, 0x10325476⟩, 0)]) := by decide

theorem test_init_on_finalized :
    after (eng [slotIn .finalized] [0x01000000]) (fun t => (t.rq, t.slots.map fun x => (x.ph, x.h, x.cnt))) =
      some ([0x01000100], [(.fresh, ⟨0x67452301, 0xEFCDAB89, 0x98BADCFE, 0x10325476⟩, 0)]) := by decide

theorem test_feed_abc :
    after (eng [slotIn .fresh] [0x02000003, 0x00636261]) (fun t => (t.rq, t.cq)) = some ([0x02000E00], []) ∧
    after (eng [slotIn .fresh] [0x02000003, 0x00636261]) (fun t => t.slots) = some [slotIn .absorbing] := by decide

/-- One block exactly: OCC is 0 again and the block is compressed. -/
theorem test_feed_block :
    after (eng [slotIn .fresh] (0x02000040 :: List.replicate 16 0x61616161)) (fun t =>
        (t.rq, t.slots.map fun x => (x.ph, x.h, x.cnt))) =
      some ([0x02000200], [(.absorbing, ⟨0x89D4FF56, 0x125CD962, 0x69CADE33, 0x0033E325⟩, 64)]) := by decide +kernel

theorem test_final_abc :
    after (eng [slotIn .absorbing] [0x03000000]) (fun t => (t.rq, t.slots.map fun x => (x.ph, x.cnt))) =
      some ([0x03000300, 0x98500190, 0xB04FD23C, 0x7D3F96D6, 0x727FE128], [(.finalized, 64)]) := by decide +kernel

theorem test_final_empty :
    answers (eng [slotIn .fresh] [0x03000000]) =
      some [0x03000300, 0xD98C1DD4, 0x04B2008F, 0x980980E9, 0x7E42F8EC] := by decide +kernel

theorem test_digest_abc :
    after (eng [slotIn .finalized] [0x04000003, 0x00636261]) (fun t => (t.rq, t.slots)) =
      some ([0x04000000, 0x98500190, 0xB04FD23C, 0x7D3F96D6, 0x727FE128], [{ Slot.reset with draws := 1 }]) := by
  decide +kernel

/-- The alphabet, S3; the two bytes past it in its last payload word are ignored (R77). -/
theorem test_digest_alphabet :
    answers (eng [slotIn .absorbing] [0x0400001A, 0x64636261, 0x68676665, 0x6C6B6A69, 0x706F6E6D, 0x74737271, 0x78777675,
        0xFFFF7A79]) =
      some [0x04000000, 0xD7D3FCC3, 0x00E49261, 0x6C49FB7D, 0x3BE167CA] := by decide +kernel

/-! ## Errors (95 2.2, 2.4, P4 to P6) -/

/-- The status words of 95 2.4, NCTX = 1 and slot 0 IDLE. -/
theorem test_status_words :
    [0x00000000, 0x01000000, 0x01000001, 0x01FF0000, 0x01FF0001, 0x02000000, 0x03000000, 0x03000100, 0x05000000,
      0xFF123456].map (fun w => answers (eng [slotIn .idle] [w])) =
    [some [0x00000004], some [0x01000100], some [0x01000004], some [0x01FF0003], some [0x01FF0004], some [0x02000002],
      some [0x03000002], some [0x03000004], some [0x05000004], some [0xFF120004]] := by decide

/-- Misuse after FINAL, and a slot number past NCTX = 2; the payload words are taken and no slot changes. -/
theorem test_errors_take_payload :
    after (eng [slotIn .finalized] [0x02000001, 0x00000078]) (fun t => (t.rq, t.cq, t.slots)) =
      some ([0x02000301], [], [slotIn .finalized]) ∧
    after (eng [slotIn .finalized] [0x03000000]) (fun t => (t.rq, t.slots)) = some ([0x03000301], [slotIn .finalized]) ∧
    after (eng [slotIn .fresh, slotIn .idle] [0x02020001, 0x0000007A]) (fun t => (t.rq, t.cq, t.slots)) =
      some ([0x02020003], [], [slotIn .fresh, slotIn .idle]) := by decide

/-- P6: the second payload word of the FEED is the FINAL's command word, and its lowest byte is the fifth byte. -/
theorem test_framing_error :
    after (eng [slotIn .fresh] [0x02000005, 0x64636261, 0x03000000]) (fun t => (t.rq, t.ds, t.cq)) =
      some ([0x02001600], .waitCmd, []) ∧
    after (eng [slotIn .fresh] [0x02000005, 0x64636261, 0x03000000]) (fun t => t.slots.map fun x => x.buf.toList.take 5) =
      some [[0x61, 0x62, 0x63, 0x64, 0x00]] ∧
    after (eng [slotIn .fresh] [0x02000005, 0x64636261]) (fun t => (t.rq, t.ds, t.cq)) =
      some ([], .payload .feed 0 5 [0x64636261], []) := by decide

/-! ## Queues, host and reset (R32, R230 to R232, R237, R242) -/

/-- RQ has room for two of five words: the others wait, and come when the host reads. -/
theorem test_response_waits :
    after { eng [slotIn .absorbing] [0x03000000] with rq := [1, 2, 3] } (fun t => (t.rq, t.pend)) =
      some ([1, 2, 3, 0x03000300, 0x98500190], [0xB04FD23C, 0x7D3F96D6, 0x727FE128]) ∧
    after { eng [slotIn .idle] [0x01000000] with rq := [1, 2, 3, 4], pend := [5, 6] } (fun t => (t.rq, t.pend, t.cq)) =
      some ([1, 2, 3, 4, 5], [6], [0x01000000]) ∧
    stop { eng [slotIn .idle] [0x01000000] with rq := [1, 2, 3, 4, 5], pend := [6] } = some .waitResponse := by
  decide +kernel

/-- A full RQ holds the engine although it has nothing to append (R32): no command word and no payload word is taken. -/
theorem test_full_rq_holds :
    stop { eng [slotIn .idle] [0x01000000] with rq := [1, 2, 3, 4, 5] } = some .waitResponse ∧
    stop { eng [slotIn .fresh] [7] with rq := [1, 2, 3, 4, 5], ds := .payload .feed 0 8 [] } = some .waitResponse ∧
    after { eng [slotIn .idle] [0x01000000] with rq := [1, 2, 3, 4] } (fun t => (t.rq, t.cq)) =
      some ([1, 2, 3, 4, 0x01000100], []) := by decide

theorem test_waits :
    stop (eng [slotIn .idle] []) = some .waitCommand ∧
    stop { eng [slotIn .idle] [] with ds := .payload .feed 0 4 [] } = some .waitPayload ∧
    stop { eng [slotIn .idle] [0x01000000] with rst := true } = some .waitReset := by decide

theorem test_host_moves :
    after { eng [slotIn .idle] [7] with host := [.write 8, .read] } (fun t => (t.cq, t.host)) = some ([7, 8], [.read]) ∧
    after { eng [slotIn .idle] [7] with rq := [1, 2], host := [.read] } (fun t => (t.rq, t.got, t.host)) =
      some ([2], [1], []) ∧
    after { eng [slotIn .idle] [0x01000000] with host := [.read] } (fun t => (t.rq, t.host)) =
      some ([0x01000100], [.read]) ∧
    after { eng [slotIn .idle] [0x01000000] with host := [.letEngine, .read] } (fun t => (t.rq, t.host)) =
      some ([0x01000100], [.read]) := by decide

theorem test_reset_input :
    after { eng [slotIn .absorbing] [7] with rq := [1], pend := [2], ds := .payload .feed 0 9 [3], host := [.assertReset] }
        (fun t => (t.slots, t.ds, t.cq ++ t.rq ++ t.pend, t.rst)) =
      some ([Slot.reset], .waitCmd, [], true) ∧
    after { eng [slotIn .idle] [] with rst := true, host := [.write 5] } (fun t => (t.cq, t.rst)) = some ([], true) ∧
    after { eng [slotIn .idle] [] with rst := true, host := [.releaseReset] } (fun t => (t.cq, t.rst)) =
      some ([], false) := by decide

/-- From reset, a command at the head of CQ runs; with nothing there the engine waits (log entry 12). -/
theorem test_first_instruction :
    after (State.reset.withFetchWord 32 0x01FF0000) (fun t => (t.rq, t.cq)) = some ([0x01FF0100], []) ∧
    after (State.reset.withFetchWord 32 0x02000005) (fun t => (t.rq, t.cq)) = some ([0x02000002], []) ∧
    stop State.reset = some .waitCommand := by decide +kernel

/-! ## Witnesses: for every statement with hypotheses, a state and operands that meet them all, one for each clause -/

theorem eng_ready (sls : List Slot) (cq : List Word) : Ready (eng sls cq) := ⟨rfl, rfl, rfl, rfl, Nat.zero_lt_succ 4⟩

/-- DecoderIsTotalOnFiveKinds: each of its five cases, at the ends of CID, N and the reserved opcodes. -/
theorem witness_DecoderIsTotalOnFiveKinds :
    (∀ w ∈ ([0x01000000, 0x01FF0000] : List Word), w.toNat / 2 ^ 24 = 1 ∧ w.toNat % 2 ^ 16 = 0) ∧
    (∀ w ∈ ([0x02000000, 0x02FFFFFF] : List Word), w.toNat / 2 ^ 24 = 2) ∧
    (∀ w ∈ ([0x03000000, 0x03FF0000] : List Word), w.toNat / 2 ^ 24 = 3 ∧ w.toNat % 2 ^ 16 = 0) ∧
    (∀ w ∈ ([0x04000000, 0x04FFFFFF] : List Word), w.toNat / 2 ^ 24 = 4) ∧
    (∀ w ∈ ([0x00FFFFFF, 0x01000001, 0x0300FFFF, 0x05000000, 0xFFFFFFFF] : List Word),
      let op := w.toNat / 2 ^ 24
      let n := w.toNat % 2 ^ 16
      ¬ (op = 1 ∧ n = 0) ∧ op ≠ 2 ∧ ¬ (op = 3 ∧ n = 0) ∧ op ≠ 4) := by simp

/-- DecoderFollowsMatchAndMask: a word for each row, and one that no row selects. -/
theorem witness_DecoderFollowsMatchAndMask :
    opcodeMap.map (fun r => [0x01FF0000, 0x02FFFFFF, 0x03FF0000, 0x04FFFFFF, 0x05000000].map r.selects) =
      [[true, false, false, false, false], [false, true, false, false, false], [false, false, true, false, false],
       [false, false, false, true, false]] := by decide

/-- DecodeOfEncodeIsTheCommand and the family EncodeFields: a well-formed command of each kind, at the ends of its fields. -/
theorem witness_DecodeOfEncodeIsTheCommand :
    (Instr.init 0).wellFormed = true ∧ (Instr.init 255).wellFormed = true ∧ (Instr.feed 0 0).wellFormed = true ∧
    (Instr.feed 255 65535).wellFormed = true ∧ (Instr.final 255).wellFormed = true ∧
    (Instr.digest 255 65535).wellFormed = true := by decide

theorem witness_EncodeOfDecodeIsTheWord :
    decode 0x01FF0000 = .instr (.init 255) ∧ decode 0x02FFFFFF = .instr (.feed 255 65535) ∧
    decode 0x03000000 = .instr (.final 0) ∧ decode 0x0400FFFF = .instr (.digest 0 65535) := by decide

/-- PayloadCarriesTheSpan: two last words that differ only past the span; the empty span; the longest. -/
theorem witness_PayloadCarriesTheSpan :
    (([0x00636261] : List Word).length = (3 + 3) / 4 ∧
      ∀ j, j < 3 → (([0x00636261] : List Word).getD (j / 4) 0).extractLsb' (8 * (j % 4)) 8 =
        (([0xFF636261] : List Word).getD (j / 4) 0).extractLsb' (8 * (j % 4)) 8) ∧
    ([] : List Word).length = (0 + 3) / 4 ∧ (∃ p : List Word, p.length = (65535 + 3) / 4) :=
  ⟨by decide, rfl, List.replicate ((65535 + 3) / 4) 0, List.length_replicate⟩

/-- FeedlChunksAreTheSpan: a chunk of a span, and a span short enough to be one chunk. -/
theorem witness_FeedlChunksAreTheSpan :
    [0x61] ∈ feedlChunks [0x61] ∧ ([0x61] : List Byte).length ≤ 65535 := by decide

/-- StatusWordHasItsFields: errors of both kinds, on a slot that exists, and a framed command. -/
theorem witness_StatusWordHasItsFields :
    (Err.noContext ≠ .illegal ∧ Err.noContext ≠ .badCid) ∧ (eng [slotIn .absorbing] []).slots[0]? = some (slotIn .absorbing) ∧
    (∀ p : Phase, (eng [slotIn p] []).slots[0]? = some (slotIn p)) ∧
    Ready (eng [slotIn .fresh] [0x02000003, 0x00636261, 7]) ∧ ([0x00636261] : List Word).length = (decode 0x02000003).payload :=
  ⟨⟨by decide, by decide⟩, rfl, fun _ => rfl, eng_ready _ _, by decide⟩

/-- OneStatusWordPerCommand: all payload words there; too few; a part of them coming later, not the last and the last. -/
theorem witness_OneStatusWordPerCommand :
    (Ready (eng [slotIn .fresh] [0x02000005, 1, 2, 3]) ∧
      (eng [slotIn .fresh] [0x02000005, 1, 2, 3]).cq = 0x02000005 :: [1, 2] ++ [3] ∧
      ([1, 2] : List Word).length = (decode 0x02000005).payload) ∧
    (Ready (eng [slotIn .fresh] [0x0400FFFF]) ∧ (eng [slotIn .fresh] [0x0400FFFF]).cq = 0x0400FFFF :: [] ++ [] ∧
      ([] : List Word).length < (decode 0x0400FFFF).payload) ∧
    (let s : State := { eng [slotIn .fresh] [2, 9] with ds := .payload .digest 0 5 [1] }
     s.host = [] ∧ s.rst = false ∧ s.pend = [] ∧ s.rq.length < s.rspDepth ∧ s.ds = .payload .digest 0 5 [1] ∧
      s.cq = [2] ++ [9] ∧ ([2] : List Word) ≠ [] ∧ ([1] : List Word).length + ([2] : List Word).length = (5 + 3) / 4) ∧
    (let s : State := { eng [slotIn .fresh] [2] with ds := .payload .feed 0 9 [1] }
     s.host = [] ∧ s.rst = false ∧ s.pend = [] ∧ s.rq.length < s.rspDepth ∧ s.ds = .payload .feed 0 9 [1] ∧
      s.cq = [2] ++ [] ∧ ([2] : List Word) ≠ [] ∧ ([1] : List Word).length + ([2] : List Word).length < (9 + 3) / 4) :=
  ⟨⟨eng_ready _ _, rfl, by decide⟩, ⟨eng_ready _ _, rfl, by decide⟩, by decide, by decide⟩

/-- ErrorsHaveTheirPriority: a framed word that decodes to a command, one that is ILLEGAL, one whose CID names no slot. -/
theorem witness_ErrorsHaveTheirPriority :
    (Ready (eng [slotIn .finalized] [0x02000001, 7]) ∧
      (eng [slotIn .finalized] [0x02000001, 7]).cq = 0x02000001 :: [7] ++ [] ∧
      ([7] : List Word).length = (decode 0x02000001).payload) ∧
    (Ready (eng [slotIn .idle] [0x01FF0001]) ∧ (eng [slotIn .idle] [0x01FF0001]).cq = 0x01FF0001 :: [] ++ [] ∧
      ([] : List Word).length = (decode 0x01FF0001).payload) ∧
    (eng [slotIn .idle] []).slots[1]? = none :=
  ⟨⟨eng_ready _ _, rfl, by decide⟩, ⟨eng_ready _ _, rfl, by decide⟩, rfl⟩

/-- ErrorsChangeNoContext: each of the four errors is reported by some framed word. -/
theorem witness_ErrorsChangeNoContext :
    reportedErr 0x00000000 (eng [slotIn .idle] [0x00000000]) = .illegal ∧
    reportedErr 0x01010000 (eng [slotIn .idle] [0x01010000]) = .badCid ∧
    reportedErr 0x03000000 (eng [slotIn .idle] [0x03000000]) = .noContext ∧
    reportedErr 0x02000000 (eng [slotIn .finalized] [0x02000000]) = .finalized ∧
    Ready (eng [slotIn .finalized] [0x02000000]) ∧
    (eng [slotIn .finalized] [0x02000000]).cq = 0x02000000 :: [] ++ [] ∧
    ([] : List Word).length = (decode 0x02000000).payload :=
  ⟨by decide, by decide, by decide, by decide, eng_ready _ _, rfl, by decide⟩

/-- IllegalWordsAreReported: each way to be illegal, at its ends. -/
theorem witness_IllegalWordsAreReported :
    (∀ w ∈ ([0x00000000, 0x05000000, 0xFFFFFFFF, 0x01000001, 0x0300FFFF] : List Word),
      w.toNat / 2 ^ 24 = 0 ∨ 5 ≤ w.toNat / 2 ^ 24 ∨
        ((w.toNat / 2 ^ 24 = 1 ∨ w.toNat / 2 ^ 24 = 3) ∧ w.toNat % 2 ^ 16 ≠ 0)) ∧
    ∀ w : Word, Ready (eng [slotIn .idle] [w]) ∧ (eng [slotIn .idle] [w]).cq = w :: [] :=
  ⟨by simp, fun _ => ⟨eng_ready _ _, rfl⟩⟩

/-- BadSlotNumbersAreReported: CID = NCTX, with and without payload. -/
theorem witness_BadSlotNumbersAreReported :
    ((eng [slotIn .idle] []).nctx ≤ (Instr.init 1).cid ∧ (Instr.init 1).payload ≤ (eng [slotIn .idle] []).cq.length) ∧
    ((eng [slotIn .idle] [7, 8]).nctx ≤ (Instr.feed 255 5).cid ∧
      (Instr.feed 255 5).payload ≤ (eng [slotIn .idle] [7, 8]).cq.length) := by decide

/-- ErroneousPayloadIsConsumed: a phase error, a slot number that names no slot, a payload too short, an ILLEGAL word. -/
theorem witness_ErroneousPayloadIsConsumed :
    (([7, 8] : List Word).length = (Instr.feed 0 5).payload ∧ (eng [slotIn .finalized] [7, 8, 9]).cq = [7, 8] ++ [9] ∧
      phaseTable (.feed 0 5) (slotIn .finalized).ph = .error .finalized ∧
      phaseTable (.feed 0 5) (slotIn .idle).ph = .error .noContext) ∧
    (([7] : List Word).length = (Instr.digest 1 4).payload ∧ (eng [slotIn .idle] [7]).slots[(Instr.digest 1 4).cid]? = none) ∧
    (eng [slotIn .fresh] [7]).cq.length < (Instr.digest 0 5).payload ∧
    (Ready (eng [slotIn .idle] [0x05000003, 7]) ∧ (eng [slotIn .idle] [0x05000003, 7]).cq = 0x05000003 :: [7] ∧
      decode 0x05000003 = .illegal .reservedOpcode) :=
  ⟨⟨rfl, rfl, rfl, rfl⟩, ⟨rfl, rfl⟩, by decide, eng_ready _ _, rfl, by decide⟩

/-- ResponsesWaitForRoomInOrder: RQ full, and a response that is held back. -/
theorem witness_ResponsesWaitForRoomInOrder :
    let s : State := { eng [] [] with rq := [1, 2, 3, 4, 5] }
    s.rq.length ≤ s.rspDepth ∧ (respond [6] s).pend ≠ [] ∧ (eng [] []).rq.length ≤ (eng [] []).rspDepth := by decide

/-- RoundSchedule, MixingFunctions, MessageWordsAreLittleEndian, DigestIsLittleEndian and LengthFieldIsTheBitCount: the ends of
their indices. -/
theorem witness_indices :
    ((0 < 64 ∧ 63 < 64) ∧ (0 < 32 ∧ 31 < 32)) ∧ (0 < 16 ∧ 15 < 16) ∧ (0 < 4 ∧ 3 < 4) ∧ (0 < 8 ∧ 7 < 8) := by decide

/-- AbsorbOneByte: a byte that fills the buffer and one that does not, OCC = 62 and 63. -/
theorem witness_AbsorbOneByte :
    { slotIn .absorbing with cnt := 62 }.cnt.toNat % 64 ≠ 63 ∧ { slotIn .absorbing with cnt := 63 }.cnt.toNat % 64 = 63 ∧
    { slotIn .absorbing with cnt := 0xFFFFFFFFFFFFFFFF }.cnt.toNat % 64 = 63 := by decide

/-- PartialFeedKeepsOtherBytes: a span that just does not fill the buffer, a byte inside it and bytes outside. -/
theorem witness_PartialFeedKeepsOtherBytes :
    let o := (slotIn .absorbing).cnt.toNat % 64
    let n := (List.replicate 60 (0 : Byte)).length
    o + n < 64 ∧ (o ≤ 62 ∧ 62 < o + n) ∧ ¬ (o ≤ 2 ∧ 2 < o + n) ∧ ¬ (o ≤ 63 ∧ 63 < o + n) := by decide

/-- InitCreatesAFreshContext, FeedAbsorbsItsSpan, FinalFinalizesTheContext, DigestAnswersAndZeroizes, ChunkingIsInvisible: a
slot in every phase they allow, the last slot among them, and payloads of the least and the greatest length. -/
theorem witness_commands_complete :
    (∀ p : Phase, (eng [slotIn .idle, slotIn p] []).slots[1]? = some (slotIn p)) ∧
    (slotIn .fresh).ph = .fresh ∧ (slotIn .absorbing).ph = .absorbing ∧
    (0 + 3) / 4 ≤ (eng [slotIn .fresh] []).cq.length ∧
    (∃ p, (65535 + 3) / 4 ≤ (eng [slotIn .fresh] p).cq.length) :=
  ⟨fun _ => rfl, rfl, rfl, by decide, List.replicate ((65535 + 3) / 4) 0, List.length_replicate.ge⟩

/-- SplitPayloadIsTheSame: no word there at first, and one of two; a part that is not the last. -/
theorem witness_SplitPayloadIsTheSame :
    Ready (eng [slotIn .fresh] []) ∧
    (([] : List Word).length < (1 + 3) / 4 ∧ (1 + 3) / 4 ≤ (([] : List Word) ++ [7]).length) ∧
    (([7] : List Word).length < (5 + 3) / 4 ∧ (5 + 3) / 4 ≤ (([7] : List Word) ++ [8, 9]).length) ∧
    (([8] : List Word) ≠ [] ∧ (([7] : List Word) ++ [8]).length < (9 + 3) / 4) :=
  ⟨eng_ready _ _, by decide, by decide, by decide⟩

/-- PhaseTransitions: every command on a slot in every phase, its payload there. -/
theorem witness_PhaseTransitions :
    ∀ p : Phase, ∀ i ∈ [Instr.init 0, .feed 0 0, .feed 0 1, .final 0, .digest 0 0, .digest 0 8],
      (eng [slotIn p] [7, 8]).slots[i.cid]? = some (slotIn p) ∧ (slotIn p).ph = p ∧
        i.payload ≤ (eng [slotIn p] [7, 8]).cq.length := by
  intro p i hi
  cases p <;> fin_cases hi <;> exact ⟨rfl, rfl, by decide⟩

/-- PaddingLeavesRoomForTheLength: both cases where they meet, and another padding that leaves the room. -/
theorem witness_PaddingLeavesRoomForTheLength :
    (55 : Count).toNat % 64 < 56 ∧ 56 ≤ (56 : Count).toNat % 64 ∧ ((55 : Count).toNat + 65) % 64 = 56 := by decide

/-- FeedAppendsToTheMessage, FinalReturnsTheDigestOfTheMessage: slots that hold the empty message, "abc", and one whole
block. -/
theorem witness_Represents :
    Represents (slotIn .fresh) [] ∧ Represents (slotIn .absorbing) [0x61, 0x62, 0x63] ∧
    Represents { slotIn .absorbing with h := ⟨0x89D4FF56, 0x125CD962, 0x69CADE33, 0x0033E325⟩, cnt := 64 }
      (List.replicate 64 0x61) :=
  ⟨⟨rfl, rfl, by decide⟩, ⟨rfl, rfl, by decide⟩, rfl, by decide +kernel, by decide⟩

/-- DigestEqualsStreaming: the last slot of the engine, a span cut with an empty chunk among the chunks. -/
theorem witness_DigestEqualsStreaming :
    1 < (eng [slotIn .idle, slotIn .finalized] []).nctx ∧ ([0x61, 0x62, 0x63] : List Byte).length ≤ 65535 ∧
    ([[0x61], [], [0x62, 0x63]] : List (List Byte)).flatten = [0x61, 0x62, 0x63] := by decide

/-- StepRunsTheDecodedCommand: a command word of each kind at the head of CQ. -/
theorem witness_StepRunsTheDecodedCommand :
    (∀ w : Word, Ready (eng [slotIn .idle] [w, 7]) ∧ (eng [slotIn .idle] [w, 7]).cq = w :: [7]) ∧
    decode 0x01000000 = .instr (.init 0) ∧ decode 0x02000004 = .instr (.feed 0 4) ∧
    decode 0x03000000 = .instr (.final 0) ∧ decode 0x04000004 = .instr (.digest 0 4) :=
  ⟨fun _ => ⟨eng_ready _ _, rfl⟩, by decide, by decide, by decide, by decide⟩

/-- FramedCommandsComplete: RQ with room for exactly five words. -/
theorem witness_FramedCommandsComplete :
    Ready (eng [slotIn .fresh] [0x03000000, 9]) ∧ (eng [slotIn .fresh] [0x03000000, 9]).cq = 0x03000000 :: [] ++ [9] ∧
    ([] : List Word).length = (decode 0x03000000).payload ∧
    (eng [slotIn .fresh] [0x03000000, 9]).rq.length + 5 ≤ (eng [slotIn .fresh] [0x03000000, 9]).rspDepth :=
  ⟨eng_ready _ _, rfl, by decide, by decide⟩

/-- EngineHoldsOnlyInItsWaits: a state without host moves in each of the four waits, and one that steps. -/
theorem witness_EngineHoldsOnlyInItsWaits :
    stop { eng [] [7] with rst := true } = some .waitReset ∧
    stop { eng [] [7] with rq := [1, 2, 3, 4, 5], pend := [6] } = some .waitResponse ∧
    stop { eng [] [7] with rq := [1, 2, 3, 4, 5] } = some .waitResponse ∧
    stop (eng [] []) = some .waitCommand ∧ stop { eng [] [] with ds := .payload .digest 0 1 [] } = some .waitPayload ∧
    stop (eng [] [7]) = none ∧ (eng [] [7]).host = [] := by decide

/-- The host waits for a response while the engine waits for payload words: no word is to come (R236, R241). -/
def payloadDeadlock : State := { eng [slotIn .fresh] [] with ds := .payload .feed 0 1 [], host := [.read, .write 7] }

/-- R237's deadlock: the host waits for room in CQ, and reads no response while it does. -/
def queueDeadlock : State :=
  { eng [slotIn .fresh] [7] with cqDepth := 1, rq := [1, 2, 3, 4, 5], host := [.write 8, .read] }

/-- Both deadlocks are stuck, though the host has moves left. -/
theorem test_deadlocks_are_stuck : Stuck payloadDeadlock ∧ Stuck queueDeadlock :=
  ⟨.inl ⟨by decide, fun _ h => by rw [reaches_of_fault (f := .waitPayload) rfl h]; exact ⟨rfl, rfl⟩⟩,
    .inr ⟨by decide, fun _ h => by rw [reaches_of_fault (f := .waitResponse) rfl h]; exact ⟨rfl, rfl⟩⟩⟩

/-- RunsEndQuiescentOrStuck: a run that stops; a holding host at a short payload and at a full RQ; a host with only reads, and
one with only writes; a state after a stuck one; a quiescent state. -/
theorem witness_RunsEndQuiescentOrStuck :
    (step (eng [] []) = .fault .waitCommand ∧ (eng [] []).rst = false) ∧
    (HostHolds payloadDeadlock ∧ payloadDeadlock.rst = false ∧
      (payloadDeadlock.ds ≠ .waitCmd ∧ payloadDeadlock.pend = [] ∧ payloadDeadlock.cq = [])) ∧
    (HostHolds queueDeadlock ∧ queueDeadlock.rst = false ∧ queueDeadlock.rspDepth ≤ queueDeadlock.rq.length) ∧
    (∀ m ∈ ([.letEngine, .read] : List HostMove), m = .read ∨ m = .letEngine) ∧
    (∀ m ∈ ([.letEngine, .write 7] : List HostMove), (∃ w, m = .write w) ∨ m = .letEngine) ∧
    (0 < queueDeadlock.rspDepth ∧ Stuck queueDeadlock ∧ Reaches queueDeadlock queueDeadlock) ∧
    (0 < (eng [] []).rspDepth ∧ Quiescent (eng [] []) ∧ (eng [] []).host = []) :=
  ⟨⟨rfl, rfl⟩, ⟨rfl, rfl, by decide, rfl, rfl⟩, ⟨⟨rfl, by decide⟩, rfl, by decide⟩, by simp, by simp,
    ⟨by decide, test_deadlocks_are_stuck.2, .here⟩, by decide, ⟨rfl, rfl, rfl, rfl⟩, rfl⟩

/-- ConfigurationIsFixed and ResponsesKeepTheirOrder: states that step, by the engine and by a host move; for the former also
by reset. -/
theorem witness_states_that_step :
    (∃ t, step (eng [slotIn .idle] [0x01000000]) = .next t) ∧ (eng [slotIn .idle] [0x01000000]).host.head? ≠ some .assertReset ∧
    (∃ t, step { eng [] [] with rq := [1], host := [.read] } = .next t) ∧
    (∃ t, step { eng [] [] with host := [.assertReset] } = .next t) :=
  ⟨⟨_, rfl⟩, by decide, ⟨_, rfl⟩, ⟨_, rfl⟩⟩

/-- SlotsAreIndependent: framed commands to two slots, interleaved. -/
theorem witness_SlotsAreIndependent :
    ∀ p ∈ ([(.init 0, []), (.init 1, []), (.feed 0 3, [0x00636261]), (.digest 1 8, [7, 8]), (.final 0, [])] :
        List (Instr × List Word)), Framed p := by
  intro p hp
  fin_cases hp <;> rfl

/-- CommandsTouchOnlyTheirSlot: two states that agree on slot 0 and on CQ and differ elsewhere. -/
theorem witness_CommandsTouchOnlyTheirSlot :
    (eng [slotIn .fresh, slotIn .idle] [7]).slots[(Instr.feed 0 4).cid]? =
      (eng [slotIn .fresh, slotIn .absorbing] [7]).slots[(Instr.feed 0 4).cid]? ∧
    (eng [slotIn .fresh, slotIn .idle] [7]).cq = (eng [slotIn .fresh, slotIn .absorbing] [7]).cq ∧
    (eng [slotIn .fresh, slotIn .idle] [7]) ≠ (eng [slotIn .fresh, slotIn .absorbing] [7]) := by decide

/-- UnspecifiedBytesAreNeverRead: two slots that differ in the first and the last unspecified byte of BUF, before a FINAL. -/
theorem witness_UnspecifiedBytesAreNeverRead :
    let other := { slotIn .absorbing with buf := ((slotIn .absorbing).buf.set 3 0xFF).set 63 0xFF }
    Alike (eng [slotIn .absorbing] [0x03000000]) (eng [other] [0x03000000]) ∧ other ≠ slotIn .absorbing ∧
      ∃ t, step (eng [slotIn .absorbing] [0x03000000]) = .next t :=
  ⟨⟨.cons ⟨rfl, rfl, rfl, by decide⟩ .nil, rfl, rfl, rfl, rfl, rfl, rfl, rfl, rfl, rfl⟩, by decide, _, rfl⟩

/-- ResetValues and InvariantHoldsAtReset: the least and the greatest NCTX R10 allows, each with its last slot. -/
theorem witness_ResetValues :
    (⟨1, 5, 1⟩ : Config).Valid ∧ presentedConfig.Valid ∧ 0 < (⟨1, 5, 1⟩ : Config).nctx ∧ 255 < presentedConfig.nctx ∧
    0 < 64 ∧ 63 < 64 := by decide

/-- ResetAtAnyTime: reset in the middle of a payload, with both queues in use and a response held back. -/
theorem witness_ResetAtAnyTime :
    { eng [slotIn .absorbing] [7] with
      rq := [1], pend := [2], ds := .payload .feed 0 9 [3], host := [.assertReset, .read] }.host = .assertReset :: [.read] := rfl

/-- An engine held in reset, as R230 leaves it. -/
def held (moves : List HostMove) : State := { eng [slotIn .idle] [] with rst := true, host := moves }

theorem held_inv (moves : List HostMove) : Inv (held moves) := by
  have slot : ∀ sl ∈ (held moves).slots, sl = slotIn .idle := by simp [held, eng]
  refine ⟨by simp [State.config, held, eng, State.resetWith, Config.Valid], ⟨by simp [held, eng, State.resetWith],
    by simp [held, eng, State.resetWith], by simp [held, eng, State.resetWith], fun h => absurd rfl h⟩, trivial, ?_, ?_⟩
  · exact fun _ => ⟨⟨rfl, rfl, rfl, rfl⟩, fun sl h => by rw [slot sl h]; rfl⟩
  · intro sl h
    rw [slot sl h]
    exact ⟨rfl, rfl, rfl⟩

/-- ResetRelease: each of its four parts. -/
theorem witness_ResetRelease :
    (held [.write 5, .read]).rst = true ∧ (held [.write 5, .read]).host = .write 5 :: [.read] ∧
    { eng [slotIn .idle] [] with host := [.assertReset, .write 5, .read] }.host = .assertReset :: .write 5 :: [.read] ∧
    (held [.releaseReset]).host = .releaseReset :: [] ∧
    Inv (held [.releaseReset, .write 0x01000000]) ∧ (held [.releaseReset, .write 0x01000000]).rst = true ∧
    (held [.releaseReset, .write 0x01000000]).host = [.releaseReset, .write 0x01000000] :=
  ⟨rfl, rfl, rfl, rfl, held_inv _, rfl, rfl⟩

/-- HostMovesOnTheQueues: CQ with room for one word and full; RQ with a word and empty. -/
theorem witness_HostMovesOnTheQueues :
    let s : State := { eng [] [7] with cqDepth := 2, host := [.write 8] }
    let full : State := { eng [] [7, 7] with cqDepth := 2, host := [.write 8] }
    let r : State := { eng [] [] with rq := [1], host := [.read] }
    (s.rst = false ∧ s.host = .write 8 :: [] ∧ s.cq.length < s.cqDepth) ∧
    (full.rst = false ∧ full.host = .write 8 :: [] ∧ full.cqDepth ≤ full.cq.length) ∧
    (r.rst = false ∧ r.host = .read :: [] ∧ r.rq = 1 :: []) ∧
    (let e : State := { eng [] [] with host := [.read] }
     e.rst = false ∧ e.host = .read :: [] ∧ e.rq = []) := by decide

/-- HeldResponsesDrainFirst: room for one of two words. -/
theorem witness_HeldResponsesDrainFirst :
    let s : State := { eng [] [] with rq := [1, 2, 3, 4], pend := [5, 6] }
    s.host = [] ∧ s.rst = false ∧ s.pend ≠ [] ∧ s.rq.length < s.rspDepth := by decide

/-- InvariantIsKept: a state that meets the invariant and steps, by a host move. -/
theorem witness_InvariantIsKept :
    Inv (held [.releaseReset]) ∧ ∃ t, step (held [.releaseReset]) = .next t := ⟨held_inv _, _, rfl⟩

/-- SlotsAlwaysHoldMessages: an engine with a slot in every phase, each holding its message, that runs a command. -/
theorem witness_SlotsAlwaysHoldMessages :
    MessagesHeld (eng [slotIn .idle, slotIn .fresh, slotIn .absorbing, slotIn .finalized] [0x02020001, 0x00000064]) ∧
    ∃ t, step (eng [slotIn .idle, slotIn .fresh, slotIn .absorbing, slotIn .finalized] [0x02020001, 0x00000064]) =
      .next t := by
  refine ⟨?_, _, rfl⟩
  intro sl h
  simp only [eng, List.mem_cons, List.not_mem_nil, or_false] at h
  rcases h with rfl | rfl | rfl | rfl
  · exact ⟨nofun, nofun⟩
  · exact ⟨fun _ => witness_Represents.1, nofun⟩
  · exact ⟨nofun, fun _ => ⟨_, List.cons_ne_nil _ _, witness_Represents.2.1⟩⟩
  · exact ⟨nofun, nofun⟩

end Sys2Proof.Tests
end

section
/-!
The state after reset (10_state R37): one lemma per field of `State.resetWith`, and the obligation that states all of them.
-/

namespace Sys2Proof.Machine

section ResetWith
variable (c : Config)

@[simp] theorem resetWith_slots : (State.resetWith c).slots = List.replicate c.nctx Slot.reset := rfl
@[simp] theorem resetWith_ds : (State.resetWith c).ds = .waitCmd := rfl
@[simp] theorem resetWith_cq : (State.resetWith c).cq = [] := rfl
@[simp] theorem resetWith_rq : (State.resetWith c).rq = [] := rfl
@[simp] theorem resetWith_pend : (State.resetWith c).pend = [] := rfl

/-- The slots after reset are as many as the configuration names. -/
@[simp] theorem resetWith_nctx : (State.resetWith c).nctx = c.nctx := by simp [State.nctx]

/-- The state after reset carries the configuration it was made for. -/
@[simp] theorem resetWith_config : (State.resetWith c).config = c := by simp [State.config, State.resetWith]

/-- Every slot that exists after reset is the reset slot. -/
theorem resetWith_slot {j : Nat} (h : j < c.nctx) : (State.resetWith c).slots[j]? = some Slot.reset := by
  simp [h]

end ResetWith

/-- Every byte of the reset slot's buffer is zero. -/
theorem slotReset_buf_byte (k : Nat) (h : k < 64) : Slot.reset.buf[k] = 0x00 := by
  simp [Slot.reset]

/-- Settles O51: every slot is the reset slot, and the other fields are read off `State.resetWith`. -/
theorem resetValues : Obligations.ResetValues := by
  intro c
  refine ⟨resetWith_config c, resetWith_nctx c, ?_, resetWith_ds c, resetWith_cq c, resetWith_rq c, resetWith_pend c⟩
  intro j hj
  exact ⟨Slot.reset, resetWith_slot c hj, rfl, rfl, rfl, rfl, slotReset_buf_byte⟩

end Sys2Proof.Machine
end

section
/-!
Byte order (20_memory R52, R53): a word and its four bytes, the message words of a block, and the bytes of a list of words.
-/

namespace Sys2Proof.Machine

/-! ## A word and its four bytes (00_scope R13) -/

/-- `le32` lays its bytes side by side, the last one at the top. -/
theorem le32_eq_append (b0 b1 b2 b3 : Byte) : le32 b0 b1 b2 b3 = b3 ++ b2 ++ b1 ++ b0 := by
  have h : (b3 ++ b2 ++ b1 ++ b0 : Word) =
      b3.setWidth 32 <<< 24 ||| b2.setWidth 32 <<< 16 ||| b1.setWidth 32 <<< 8 ||| b0.setWidth 32 :=
    (BitVec.setWidth_eq _).symm.trans BitVec.setWidth_append_append_append_eq_shiftLeft_setWidth_or
  simp only [le32, h, BitVec.or_comm, BitVec.or_assoc]

/-- `le32bytes` takes apart what `le32` put together. -/
@[simp] theorem le32bytes_le32 (b0 b1 b2 b3 : Byte) : le32bytes (le32 b0 b1 b2 b3) = [b0, b1, b2, b3] := by
  simp (disch := decide) only [le32bytes, le32_eq_append, BitVec.extractLsb'_append_eq_of_add_le,
    BitVec.extractLsb'_append_eq_of_le, Nat.reduceSub, BitVec.extractLsb'_eq_self]

/-- `le32` puts together what `le32bytes` took apart. -/
@[simp] theorem le32_extractLsb' (w : Word) :
    le32 (w.extractLsb' 0 8) (w.extractLsb' 8 8) (w.extractLsb' 16 8) (w.extractLsb' 24 8) = w := by
  rw [le32_eq_append, BitVec.extractLsb'_append_extractLsb'_eq_extractLsb' (show 24 = 16 + 8 from rfl),
    BitVec.extractLsb'_append_extractLsb'_eq_extractLsb' (show 16 = 8 + 8 from rfl),
    BitVec.extractLsb'_append_extractLsb'_eq_extractLsb' (show 8 = 0 + 8 from rfl)]
  exact BitVec.extractLsb'_eq_self

/-- Byte `i` of a word, least significant first, is its bits `8i+7 : 8i`. -/
theorem getElem?_le32bytes (w : Word) {i : Nat} (h : i < 4) : (le32bytes w)[i]? = some (w.extractLsb' (8 * i) 8) := by
  match i, h with
  | 0, _ | 1, _ | 2, _ | 3, _ => rfl

/-! ## The message words of a block (R52) -/

@[simp] theorem msgWords_length (blk : Vector Byte 64) : (msgWords blk).length = 16 := by simp [msgWords]

theorem blockByte_of_lt (blk : Vector Byte 64) {i : Nat} (h : i < 64) : blockByte blk i = blk[i] := by
  simp [blockByte, h]

/-- Word `j` of a block is made of its bytes `4j` to `4j+3`. -/
theorem getElem?_msgWords (blk : Vector Byte 64) {j : Nat} (h : j < 16) :
    (msgWords blk)[j]? = some (le32 blk[4 * j] blk[4 * j + 1] blk[4 * j + 2] blk[4 * j + 3]) := by
  simp (disch := omega) only [msgWords, List.getElem?_map, List.getElem?_range h, Option.map_some, blockByte_of_lt]

/-- Settles O20: word `j` is `le32` of the four bytes, and `le32bytes` gives these back. -/
theorem messageWordsAreLittleEndian : Obligations.MessageWordsAreLittleEndian := by
  refine ⟨fun blk => ⟨msgWords_length blk, fun j hj => ⟨getElem?_msgWords blk hj, ?_⟩⟩, by decide⟩
  have hword := getElem?_msgWords blk hj
  have hbytes := le32bytes_le32 blk[4 * j] blk[4 * j + 1] blk[4 * j + 2] blk[4 * j + 3]
  rw [List.getD_eq_getElem?_getD, hword]
  simpa [le32bytes] using hbytes

/-! ## The bytes of a list of words (R53, R77) -/

@[simp] theorem payloadBytes_nil : payloadBytes [] = [] := rfl

@[simp] theorem payloadBytes_cons (w : Word) (ws : List Word) :
    payloadBytes (w :: ws) = le32bytes w ++ payloadBytes ws := rfl

/-- Byte `4k+i` of a list of words is bits `8i+7 : 8i` of word `k`. -/
theorem getElem?_payloadBytes (ws : List Word) (k : Nat) {i : Nat} (h : i < 4) :
    (payloadBytes ws)[4 * k + i]? = ws[k]?.map fun w => w.extractLsb' (8 * i) 8 := by
  induction ws generalizing k with
  | nil => simp
  | cons w ws ih =>
    have hlen : (le32bytes w).length = 4 := rfl
    cases k with
    | zero => simpa [List.getElem?_append_left (hlen.symm ▸ h)] using getElem?_le32bytes w h
    | succ k =>
      rw [payloadBytes_cons, List.getElem?_append_right (by omega), hlen,
        show 4 * (k + 1) + i - 4 = 4 * k + i by omega, ih k, List.getElem?_cons_succ]

/-- Packing the bytes of a list of words gives the words back. -/
theorem packWords_payloadBytes (ws : List Word) : packWords (payloadBytes ws) = ws := by
  induction ws with
  | nil => rfl
  | cons w ws ih => simp [le32bytes, packWords, ih]

/-- The digest bytes are the bytes of the digest words, in order. -/
theorem digestBytes_eq_payloadBytes (h : HWords) : digestBytes h = payloadBytes (digestWords h) := by
  simp [digestBytes, digestWords]

/-- Settles O23: the digest bytes are those of the digest words, so each clause is the fact about any list of words. -/
theorem digestIsLittleEndian : Obligations.DigestIsLittleEndian := by
  intro h
  refine ⟨rfl, rfl, fun k i _ hi => ?_, ?_⟩
  · rw [digestBytes_eq_payloadBytes, getElem?_payloadBytes _ k hi]
  · rw [digestBytes_eq_payloadBytes, packWords_payloadBytes]

end Sys2Proof.Machine
end

section
/-!
The command word and its decoder (30_encoding R71 to R76): a word is its three fields, a command is exactly its OP, CID and
N, and a row of the opcode map is a condition on each field.
-/

namespace Sys2Proof.Machine

/-! ## The fields of a command word (R71) -/

/-- A word is its OP, CID and N fields, side by side. -/
theorem fields_append (w : Word) : opField w ++ cidField w ++ nField w = w := by
  rw [opField, cidField, nField, BitVec.extractLsb'_append_extractLsb'_eq_extractLsb' (show 24 = 16 + 8 from rfl),
    BitVec.extractLsb'_append_extractLsb'_eq_extractLsb' (show 16 = 0 + 16 from rfl)]
  exact BitVec.extractLsb'_eq_self

/-- Two words are equal exactly when their three fields are. -/
theorem append_fields_inj {op cid op' cid' : Byte} {n n' : BitVec 16} :
    op ++ cid ++ n = op' ++ cid' ++ n' ↔ op = op' ∧ cid = cid' ∧ n = n' := by
  refine ⟨fun h => ?_, by rintro ⟨rfl, rfl, rfl⟩; rfl⟩
  have fields := And.intro (congrArg opField h) (And.intro (congrArg cidField h) (congrArg nField h))
  simpa only [Laws.EncodeFields.fields] using fields

/-- Selecting by mask and match is a condition on each field. -/
theorem and_mask_eq_iff (w : Word) (mop mcid op cid : Byte) (mn n : BitVec 16) :
    w &&& (mop ++ mcid ++ mn) = op ++ cid ++ n ↔
      opField w &&& mop = op ∧ cidField w &&& mcid = cid ∧ nField w &&& mn = n := by
  conv_lhs => rw [← fields_append w, BitVec.and_append, BitVec.and_append]
  exact append_fields_inj

theorem opField_toNat (w : Word) : (opField w).toNat = w.toNat / 2 ^ 24 := by
  rw [opField, BitVec.extractLsb'_toNat, Nat.shiftRight_eq_div_pow]
  exact Nat.mod_eq_of_lt (by omega)

theorem cidField_toNat (w : Word) : (cidField w).toNat = w.toNat / 2 ^ 16 % 2 ^ 8 := by
  rw [cidField, BitVec.extractLsb'_toNat, Nat.shiftRight_eq_div_pow]

theorem nField_toNat (w : Word) : (nField w).toNat = w.toNat % 2 ^ 16 := by
  rw [nField, BitVec.extractLsb'_toNat, Nat.shiftRight_zero]

/-! ## The decoder (R76) -/

/-- A word decodes to a command exactly when its three fields are that command's OP, CID and N. -/
theorem decode_eq_instr_iff (w : Word) (i : Instr) :
    decode w = .instr i ↔ opField w = i.opcode ∧ (cidField w).toNat = i.cid ∧ (nField w).toNat = i.count := by
  constructor
  · intro h
    unfold decode at h
    split at h
    case h_1 hop =>
      split at h
      case isTrue hn => cases h; exact ⟨BitVec.eq_of_toNat_eq hop, rfl, congrArg BitVec.toNat hn⟩
      case isFalse => cases h
    case h_2 hop => cases h; exact ⟨BitVec.eq_of_toNat_eq hop, rfl, rfl⟩
    case h_3 hop =>
      split at h
      case isTrue hn => cases h; exact ⟨BitVec.eq_of_toNat_eq hop, rfl, congrArg BitVec.toNat hn⟩
      case isFalse => cases h
    case h_4 hop => cases h; exact ⟨BitVec.eq_of_toNat_eq hop, rfl, rfl⟩
    case h_5 => cases h
  · rintro ⟨hop, hcid, hn⟩
    cases i with
    | init cid =>
      have hn0 : nField w = 0 := BitVec.eq_of_toNat_eq hn
      simp [decode, hop, hn0, Instr.opcode, hcid, Instr.cid]
    | feed cid n => simp [decode, hop, Instr.opcode, hcid, Instr.cid, hn, Instr.count]
    | final cid =>
      have hn0 : nField w = 0 := BitVec.eq_of_toNat_eq hn
      simp [decode, hop, hn0, Instr.opcode, hcid, Instr.cid]
    | digest cid n => simp [decode, hop, Instr.opcode, hcid, Instr.cid, hn, Instr.count]

/-- A word is ILLEGAL exactly when it decodes to no command. -/
theorem decode_illegal_iff (w : Word) : (∃ why, decode w = .illegal why) ↔ ∀ i, decode w ≠ .instr i := by
  cases decode w <;> simp

/-- Settles O2: `decode_eq_instr_iff` for each command, and for the words whose fields are no command's. -/
theorem decoderIsTotalOnFiveKinds : Obligations.DecoderIsTotalOnFiveKinds := by
  intro w op cid n
  have decodes (i : Instr) (hop : op = i.opcode.toNat) (hcid : cid = i.cid) (hn : n = i.count) :
      decode w = .instr i ∧ (decode w).payload = i.payload := by
    have h := (decode_eq_instr_iff w i).2 ⟨BitVec.eq_of_toNat_eq ((opField_toNat w).trans hop),
      (cidField_toNat w).trans hcid, (nField_toNat w).trans hn⟩
    exact ⟨h, congrArg Decoded.payload h⟩
  refine ⟨fun ⟨hop, hn⟩ => decodes (.init cid) hop rfl hn, fun hop => decodes (.feed cid n) hop rfl rfl,
    fun ⟨hop, hn⟩ => decodes (.final cid) hop rfl hn, fun hop => decodes (.digest cid n) hop rfl rfl, ?_⟩
  rintro ⟨hinit, hfeed, hfinal, hdigest⟩
  obtain ⟨why, h⟩ := (decode_illegal_iff w).2 fun i hi => by
    obtain ⟨hop, -, hn⟩ := (decode_eq_instr_iff w i).1 hi
    replace hop : op = i.opcode.toNat := (opField_toNat w).symm.trans (congrArg _ hop)
    replace hn : n = i.count := (nField_toNat w).symm.trans hn
    cases i with
    | init _ => exact hinit ⟨hop, hn⟩
    | feed _ _ => exact hfeed hop
    | final _ => exact hfinal ⟨hop, hn⟩
    | digest _ _ => exact hdigest hop
  exact ⟨⟨why, h⟩, congrArg Decoded.payload h⟩

/-! ## The opcode map (R75) -/

/-- A row whose mask covers OP and N selects the words with that OP and with N = 0. -/
theorem and_opCountMask_eq_iff (w : Word) (op : Byte) :
    w &&& 0xFF00FFFF = op ++ 0#8 ++ 0#16 ↔ opField w = op ∧ nField w = 0#16 :=
  (and_mask_eq_iff w (.allOnes 8) 0#8 op 0#8 (.allOnes 16) 0#16).trans <| by
    simp only [BitVec.and_allOnes, BitVec.and_zero, true_and]

/-- A row whose mask covers OP alone selects the words with that OP. -/
theorem and_opMask_eq_iff (w : Word) (op : Byte) : w &&& 0xFF000000 = op ++ 0#8 ++ 0#16 ↔ opField w = op :=
  (and_mask_eq_iff w (.allOnes 8) 0#8 op 0#8 0#16 0#16).trans <| by
    simp only [BitVec.and_allOnes, BitVec.and_zero, and_true]

/-- Some command has a property when one of the four kinds does. -/
theorem exists_instr_iff {P : Instr → Prop} : (∃ i, P i) ↔
    (∃ c, P (.init c)) ∨ (∃ c n, P (.feed c n)) ∨ (∃ c, P (.final c)) ∨ ∃ c n, P (.digest c n) := by
  constructor
  · rintro ⟨i, h⟩
    cases i with
    | init c => exact .inl ⟨c, h⟩
    | feed c n => exact .inr (.inl ⟨c, n, h⟩)
    | final c => exact .inr (.inr (.inl ⟨c, h⟩))
    | digest c n => exact .inr (.inr (.inr ⟨c, n, h⟩))
  · rintro (⟨_, h⟩ | ⟨_, _, h⟩ | ⟨_, h⟩ | ⟨_, _, h⟩) <;> exact ⟨_, h⟩

/-- A row selects a word exactly when the word decodes to a command of that row. -/
theorem row_selects_iff (w : Word) :
    ∀ r ∈ opcodeMap, w &&& r.mask = r.pattern ↔ ∃ i, decode w = .instr i ∧ i.mnemonic = r.mnemonic := by
  simp only [opcodeMap, List.forall_mem_cons]
  refine ⟨(and_opCountMask_eq_iff w 1).trans ?_, (and_opMask_eq_iff w 2).trans ?_,
    (and_opCountMask_eq_iff w 3).trans ?_, (and_opMask_eq_iff w 4).trans ?_, nofun⟩
  all_goals
    simp [exists_instr_iff, decode_eq_instr_iff, Instr.mnemonic, Instr.opcode, Instr.cid, Instr.count, BitVec.toNat_eq]

/-- Every command has its row in the opcode map. -/
theorem exists_row (i : Instr) : ∃ r ∈ opcodeMap, i.mnemonic = r.mnemonic := by
  cases i <;> simp [opcodeMap, Instr.mnemonic]

/-- Settles O3: a selected word decodes to the row's command, whose CID and N are the word's; with no row there is none. -/
theorem decoderFollowsMatchAndMask : Obligations.DecoderFollowsMatchAndMask := by
  refine ⟨rfl, fun w => ⟨fun r hr => (row_selects_iff w r hr).trans ?_, ?_⟩⟩
  · refine exists_congr fun i => and_congr_right fun h => (and_iff_left ?_).symm
    exact ((decode_eq_instr_iff w i).1 h).2.imp Eq.symm Eq.symm
  · rw [decode_illegal_iff]
    constructor
    · intro unselected i hi
      obtain ⟨r, hr, hm⟩ := exists_row i
      exact unselected r hr ((row_selects_iff w r hr).2 ⟨i, hi, hm⟩)
    · intro undecoded r hr hw
      obtain ⟨i, hi, -⟩ := (row_selects_iff w r hr).1 hw
      exact undecoded i hi

end Sys2Proof.Machine
end

section
/-!
The payload of FEED and DIGEST (30_encoding R77): the bytes of the span, and that a command reads nothing else of its payload.
-/

namespace Sys2Proof.Machine

/-- Byte `j` of a span is byte `j mod 4` of payload word `j div 4`. -/
theorem getElem?_span {n j : Nat} (hj : j < n) (ws : List Word) :
    (span n ws)[j]? = ws[j / 4]?.map fun w => w.extractLsb' (8 * (j % 4)) 8 := by
  rw [span, List.getElem?_take_of_lt hj, ← getElem?_payloadBytes ws (j / 4) (Nat.mod_lt j (by decide)),
    Nat.div_add_mod]

/-- The same with enough payload words, in the form of R77. -/
theorem getElem?_span_of_words {n j : Nat} {ws : List Word} (h : ws.length = payloadWords n) (hj : j < n) :
    (span n ws)[j]? = some ((ws.getD (j / 4) 0).extractLsb' (8 * (j % 4)) 8) := by
  have hlt : j / 4 < ws.length := by rw [h, payloadWords_eq]; omega
  simp [getElem?_span hj, hlt]

/-- The payload words of a byte count carry that many bytes. -/
theorem span_length_of_words {n : Nat} {ws : List Word} (h : ws.length = payloadWords n) : (span n ws).length = n := by
  rw [span_length, h, payloadWords_eq]; omega

/-- Payloads that agree on the first `n` bytes carry the same span. -/
theorem span_congr {n : Nat} {p p' : List Word} (h : p.length = payloadWords n) (h' : p'.length = payloadWords n)
    (agree : ∀ j, j < n →
      (p.getD (j / 4) 0).extractLsb' (8 * (j % 4)) 8 = (p'.getD (j / 4) 0).extractLsb' (8 * (j % 4)) 8) :
    span n p = span n p' := by
  refine List.ext_getElem? fun j => ?_
  by_cases hj : j < n
  · rw [getElem?_span_of_words h hj, getElem?_span_of_words h' hj, agree j hj]
  · rw [List.getElem?_eq_none (by rw [span_length_of_words h]; omega),
      List.getElem?_eq_none (by rw [span_length_of_words h']; omega)]

/-- A FEED or DIGEST depends on its payload through the span alone. -/
theorem performed_congr_span (op : PayloadOp) (cid : Nat) {n : Nat} {p p' : List Word} (h : span n p = span n p')
    (s : State) : performed (payloadInstr op cid n) p s = performed (payloadInstr op cid n) p' s := by
  cases op <;> simp only [performed, payloadInstr, resultSlot, resultDigest, h]

/-- A FEED or DIGEST with its payload at the head of CQ takes exactly the payload, and answers the same next state for any
payload with the same span. -/
theorem exec_payload_congr (op : PayloadOp) (cid : Nat) {n : Nat} {p p' : List Word} (rest : List Word) (s : State)
    (hp : p.length = payloadWords n) (hp' : p'.length = payloadWords n) (h : span n p = span n p') :
    ∃ t, exec (payloadInstr op cid n) { s with cq := p ++ rest } = .next t ∧ t.cq = rest ∧
      exec (payloadInstr op cid n) { s with cq := p' ++ rest } = .next t := by
  have hw := payloadInstr_payload op cid n
  refine ⟨_, exec_framed _ s p rest (hp.trans hw.symm), performed_cq .., ?_⟩
  rw [exec_framed _ s p' rest (hp'.trans hw.symm), performed_congr_span op cid h]

/-- Settles O6: the words are exactly those of the span, so payloads that agree on its bytes have the same span. -/
theorem payloadCarriesTheSpan : Obligations.PayloadCarriesTheSpan := by
  intro cid n p rest hp
  refine ⟨span_length_of_words hp, fun j hj => getElem?_span_of_words hp hj, fun s p' hlen agree => ?_⟩
  have hspan : span n p = span n p' := span_congr hp (hlen.trans hp) agree
  exact ⟨exec_payload_congr .feed cid rest s hp (hlen.trans hp) hspan,
    exec_payload_congr .digest cid rest s hp (hlen.trans hp) hspan⟩

end Sys2Proof.Machine
end

section
/-!
The answer to a command (30_encoding R79, R80): the fields of the status word, the error it carries, and what a step of the
engine appends.
-/

namespace Sys2Proof.Machine

/-! ## The status word (R80) -/

/-- The five fields of a status word. -/
theorem statusWord_fields (op cid : Byte) (oc : BitVec 6) (ph : BitVec 2) (err : Byte) :
    let w := statusWord op cid oc ph err
    opField w = op ∧ cidField w = cid ∧ w.extractLsb' 10 6 = oc ∧ w.extractLsb' 8 2 = ph ∧ errField w = err := by
  refine ⟨?_, ?_, ?_, ?_, ?_⟩ <;>
    simp (disch := decide) only [opField, cidField, errField, statusWord, BitVec.extractLsb'_append_eq_of_add_le,
      BitVec.extractLsb'_append_eq_of_le, Nat.reduceSub, BitVec.extractLsb'_eq_self]

/-- With ERR_ILLEGAL or ERR_BAD_CID the status word speaks of no slot. -/
theorem status_of_noSlot (op : Byte) (cid : Nat) {e : Err} (s : State) (he : e = .illegal ∨ e = .badCid) :
    status op cid e s = statusWord op (BitVec.ofNat 8 cid) 0 0 (errCode e) := by
  obtain rfl | rfl := he <;> rfl

/-- With every other code it has OCC and PH of its slot. -/
theorem status_of_slot (op : Byte) {cid : Nat} {e : Err} {s : State} {sl : Slot} (he : e ≠ .illegal ∧ e ≠ .badCid)
    (hs : s.slots[cid]? = some sl) :
    status op cid e s = statusWord op (BitVec.ofNat 8 cid) (occ sl) (phaseCode sl.ph) (errCode e) := by
  obtain ⟨hill, hbad⟩ := he
  cases e with
  | illegal => exact absurd rfl hill
  | badCid => exact absurd rfl hbad
  | ok | finalized | noContext => simp only [status, hs]

/-- Whatever its slot, a status word has the OP and CID it is given and the code of its error. -/
theorem status_fields (op : Byte) (cid : Nat) (e : Err) (s : State) :
    opField (status op cid e s) = op ∧ cidField (status op cid e s) = BitVec.ofNat 8 cid ∧
      errField (status op cid e s) = errCode e := by
  obtain ⟨oc, ph, h⟩ : ∃ oc ph, status op cid e s = statusWord op (BitVec.ofNat 8 cid) oc ph (errCode e) := by
    unfold status; split <;> exact ⟨_, _, rfl⟩
  obtain ⟨hop, hcid, -, -, herr⟩ := statusWord_fields op (BitVec.ofNat 8 cid) oc ph (errCode e)
  rw [h]; exact ⟨hop, hcid, herr⟩

/-- Only ERR_OK has the code 0. -/
theorem errCode_eq_zero_iff (e : Err) : errCode e = 0 ↔ e = .ok := by
  cases e <;> decide

/-! ## What a command answers (R79) -/

/-- The error a command reports on the slots of `s`, by the priority of R208; `reportedErr` of its command word. -/
def commandErr (i : Instr) (s : State) : Err :=
  match s.slots[i.cid]? with
  | none => .badCid
  | some sl =>
    match phaseTable i sl.ph with
    | .error e => e
    | .ok _ => .ok

theorem reportedErr_of_instr {w : Word} {i : Instr} (h : decode w = .instr i) (s : State) :
    reportedErr w s = commandErr i s := by
  rw [reportedErr, h]; rfl

theorem reportedErr_of_illegal {w : Word} {why : Illegal} (h : decode w = .illegal why) (s : State) :
    reportedErr w s = .illegal := by
  simp only [reportedErr, h]

/-- The phase table raises no error that is ERR_OK. -/
theorem phaseTable_error_ne_ok {i : Instr} {p : Phase} {e : Err} (h : phaseTable i p = .error e) : e ≠ .ok := by
  rintro rfl; cases i <;> cases p <;> cases h

/-- A command has four digest words if it returns a digest, and none otherwise. -/
theorem resultDigest_length (i : Instr) (ws : List Word) (sl : Slot) :
    (resultDigest i ws sl).length = if returnsDigest i then 4 else 0 := by
  cases i <;> rfl

/-- How many digest words follow the status word of a command that ends in `e`: four after an OK FINAL or DIGEST. -/
def digestCount (i : Instr) (e : Err) : Nat := if returnsDigest i ∧ e = .ok then 4 else 0

/-- The end of a command appends its status word, which speaks of the slots after it, and the digest words. -/
theorem stream_complete (op : Byte) (cid : Nat) (e : Err) (digest : List Word) (s : State) :
    stream (complete op cid e digest s) = stream s ++ status op cid e (complete op cid e digest s) :: digest := by
  have hstatus : status op cid e s = status op cid e (complete op cid e digest s) := status_congr op cid e rfl
  rw [← hstatus]; simp [stream]

/-- A performed command appends its status word, with the error it reports and the slots after it, then its digest words. -/
theorem stream_performed (i : Instr) (ws : List Word) (s : State) :
    ∃ ds, stream (performed i ws s) = stream s ++ status i.opcode i.cid (commandErr i s) (performed i ws s) :: ds ∧
      ds.length = digestCount i (commandErr i s) := by
  obtain ⟨hs, h⟩ | ⟨sl, e, hs, he, h⟩ | ⟨sl, p, hs, hp, h⟩ := performed_cases i ws s
  · have hc : commandErr i s = .badCid := by simp only [commandErr, hs]
    rw [h, hc]; exact ⟨[], stream_complete .., by simp [digestCount]⟩
  · have hc : commandErr i s = e := by simp only [commandErr, hs, he]
    rw [h, hc]; exact ⟨[], stream_complete .., by simp [digestCount, phaseTable_error_ne_ok he]⟩
  · have hc : commandErr i s = .ok := by simp only [commandErr, hs, hp]
    rw [h, hc]; exact ⟨resultDigest i ws sl, stream_complete .., by simp [resultDigest_length, digestCount]⟩

/-! ## The step that takes a command word -/

/-- Without a move of the host the step is the engine's. -/
theorem step_eq_engineStep {s : State} (h : s.host = []) : step s = engineStep s := by
  simp only [step, agentStep, h]

/-- A ready engine runs the word at the head of CQ. -/
theorem step_of_ready {s : State} {w : Word} {rest : List Word} (h : Ready s) (hq : s.cq = w :: rest) :
    step s = runWord w { s with cq := rest } := by
  obtain ⟨hds, hpend, hrst, hhost, room⟩ := h
  rw [step_eq_engineStep hhost, engineStep_of_room s hrst room]
  simp only [hpend, hds, hq]

/-- A command word with its payload in CQ is answered by one status word, of its OP and CID and the error it reports, and the
digest words of its command if there are any. -/
theorem step_answers {s : State} {w : Word} {p rest : List Word} (h : Ready s) (hq : s.cq = w :: p ++ rest)
    (hp : p.length = (decode w).payload) :
    ∃ t ds, step s = .next t ∧ t.ds = .waitCmd ∧ t.cq = rest ∧
      stream t = stream s ++ status (opField w) (cidField w).toNat (reportedErr w s) t :: ds ∧
      (∀ i, decode w = .instr i → ds.length = digestCount i (reportedErr w s)) ∧
      ∀ why, decode w = .illegal why → ds = [] := by
  rw [step_of_ready h hq, runWord]
  cases hw : decode w with
  | illegal why =>
    obtain rfl : p = [] := List.eq_nil_of_length_eq_zero (by rw [hp, hw]; rfl)
    rw [reportedErr_of_illegal hw]
    exact ⟨_, [], rfl, rfl, rfl, stream_complete .., nofun, fun _ _ => rfl⟩
  | instr i =>
    obtain ⟨hop, hcid, -⟩ := (decode_eq_instr_iff w i).1 hw
    obtain ⟨ds, hstream, hlen⟩ := stream_performed i p { s with cq := rest }
    rw [reportedErr_of_instr hw, hop, hcid]
    refine ⟨_, ds, exec_framed i s p rest (by rw [hp, hw]; rfl), performed_ds .., performed_cq .., hstream, ?_, nofun⟩
    rintro _ ⟨⟩; exact hlen

/-- Settles O9: the fields are read off the word, and the answer is that of `step_answers`. -/
theorem statusWordHasItsFields : Obligations.StatusWordHasItsFields := by
  refine ⟨fun op cid e s => ?_, fun s w p rest h hq hp => ?_⟩
  · obtain ⟨hop, hcid, herr⟩ := status_fields op cid e s
    refine ⟨hop, hcid, herr, fun he => ?_, fun he sl hs => ?_⟩
    · obtain ⟨-, -, hocc, hph, -⟩ := statusWord_fields op (BitVec.ofNat 8 cid) 0 0 (errCode e)
      rw [status_of_noSlot op cid s he]; exact ⟨hocc, hph⟩
    · obtain ⟨-, -, hocc, hph, -⟩ := statusWord_fields op (BitVec.ofNat 8 cid) (occ sl) (phaseCode sl.ph) (errCode e)
      rw [status_of_slot op he hs]; exact ⟨hocc, hph⟩
  · obtain ⟨t, ds, hstep, -, -, hstream, -⟩ := step_answers h hq hp
    exact ⟨t, ds, hstep, hstream⟩

/-! ## The step that takes a part of a payload (R31, R236) -/

/-- A command word without all its payload words: the engine takes those there are and appends nothing. -/
theorem step_waits {s : State} {w : Word} {p : List Word} (h : Ready s) (hq : s.cq = w :: p)
    (hp : p.length < (decode w).payload) :
    ∃ t, step s = .next t ∧ t.ds ≠ .waitCmd ∧ t.cq = [] ∧ stream t = stream s ∧ t.slots = s.slots := by
  rw [step_of_ready h hq, runWord]
  cases hw : decode w with
  | illegal why => rw [hw] at hp; exact absurd hp (Nat.not_lt_zero _)
  | instr i =>
    rw [hw] at hp
    obtain ⟨op, -, hexec⟩ := exec_of_short i { s with cq := p } hp
    exact ⟨_, hexec, nofun, rfl, rfl, rfl⟩

/-- An engine in the middle of a payload goes on with the words at hand. -/
theorem step_of_payload {s : State} {op : PayloadOp} {cid n : Nat} {taken : List Word} (hhost : s.host = [])
    (hrst : s.rst = false) (hpend : s.pend = []) (room : s.rq.length < s.rspDepth)
    (hds : s.ds = .payload op cid n taken) (hq : s.cq ≠ []) : step s = .next (resume op cid n taken s) := by
  obtain ⟨w, ws, hcq⟩ := List.exists_cons_of_ne_nil hq
  rw [step_eq_engineStep hhost, engineStep_of_room s hrst room]
  simp only [hpend, hds, hcq]

/-- The last part of a payload: the command is performed on all its words, and answers. -/
theorem resume_answers (op : PayloadOp) (cid n : Nat) (taken p rest : List Word) (s : State) (hq : s.cq = p ++ rest)
    (hp : taken.length + p.length = payloadWords n) :
    let t := resume op cid n taken s
    ∃ ds e, t.ds = .waitCmd ∧ t.cq = rest ∧
      stream t = stream s ++ status (payloadInstr op cid n).opcode cid e t :: ds ∧
      ds.length = digestCount (payloadInstr op cid n) e := by
  intro t
  have hmissing : payloadWords n - taken.length = p.length := by omega
  have hcid : (payloadInstr op cid n).cid = cid := by cases op <;> rfl
  obtain ⟨ds, hstream, hlen⟩ := stream_performed (payloadInstr op cid n) (taken ++ p) { s with cq := rest }
  rw [hcid] at hstream
  have ht : t = performed (payloadInstr op cid n) (taken ++ p) { s with cq := rest } := by
    simpa only [hmissing, hq, List.take_left, List.drop_left] using
      resume_of_enough op cid n taken s (by simp [hmissing, hq])
  rw [ht]
  exact ⟨ds, _, performed_ds .., performed_cq .., hstream, hlen⟩

/-- The upper half of a word is its OP and CID. -/
theorem upper_half (w : Word) : w.extractLsb' 16 16 = opField w ++ cidField w :=
  (BitVec.extractLsb'_append_extractLsb'_eq_extractLsb' (show 24 = 16 + 8 from rfl)).symm

/-- Settles O10: `step_answers` and `step_waits` from the command word on, `resume_answers` and `resume_of_short` within a
payload. -/
theorem oneStatusWordPerCommand : Obligations.OneStatusWordPerCommand := by
  refine ⟨fun s w p rest h hq => ⟨fun hp => ?_, ?_⟩, ?_⟩
  · obtain ⟨t, ds, hstep, hds, hcq, hstream, hinstr, hillegal⟩ := step_answers h hq hp
    obtain ⟨hop, hcid, herr⟩ := status_fields (opField w) (cidField w).toNat (reportedErr w s) t
    refine ⟨t, _, ds, hstep, hds, hcq, hstream, ?_, ?_⟩
    · rw [upper_half, upper_half, hop, hcid, BitVec.ofNat_toNat, BitVec.setWidth_eq]
    · cases hw : decode w with
      | instr i => simp only [hinstr i hw, digestCount, herr, errCode_eq_zero_iff]
      | illegal why => simp only [hillegal why hw, List.length_nil]
  · rintro hp rfl
    exact step_waits h (by rw [hq, List.append_nil]) hp
  · intro s op cid n taken p rest hhost hrst hpend room hds hq hne
    have hstep := step_of_payload hhost hrst hpend room hds (by simp [hq, hne])
    constructor
    · rintro hp rfl
      rw [List.append_nil] at hq
      have hshort := resume_of_short op cid n taken s (by rw [hq, payloadWords_eq]; omega)
      rw [hstep, hshort, hq]
      exact ⟨_, rfl, rfl, rfl, rfl, rfl⟩
    · intro hp
      obtain ⟨ds, e, ht, hcq, hstream, hlen⟩ := resume_answers op cid n taken p rest s hq hp
      obtain ⟨hop, hcid, herr⟩ := status_fields (payloadInstr op cid n).opcode cid e (resume op cid n taken s)
      refine ⟨_, _, ds, hstep, ht, hcq, hstream, ?_, hcid, ?_⟩
      · refine hop.trans ?_; cases op <;> rfl
      · simp only [hlen, digestCount, herr, errCode_eq_zero_iff]; cases op <;> simp [payloadInstr, returnsDigest]

end Sys2Proof.Machine
end

section
/-!
The round pipeline (40_compression R100 to R107): the mixing functions bit by bit, and what round `i` uses in each of the four
phases.
-/

namespace Sys2Proof.Machine

/-! ## The mixing functions (R100 to R103) -/

/-- Each bit of `f0` is selected by the bit of its first argument. -/
theorem getLsbD_f0 (x y z : Word) {i : Nat} (h : i < 32) :
    (f0 x y z).getLsbD i = if x.getLsbD i then y.getLsbD i else z.getLsbD i := by
  rw [f0, BitVec.getLsbD_or, BitVec.getLsbD_and, BitVec.getLsbD_and, BitVec.getLsbD_not, decide_eq_true h]
  cases x.getLsbD i <;> simp

/-- `f1` is the select of `f0` with its last argument in the place of the first. -/
theorem f1_eq_f0 (x y z : Word) : f1 x y z = f0 z x y := by
  rw [f0, f1, BitVec.and_comm x z, BitVec.and_comm y]

theorem f0_allOnes (y z : Word) : f0 0xFFFFFFFF y z = y := by
  have hones : (0xFFFFFFFF : Word) = BitVec.allOnes 32 := rfl
  refine BitVec.eq_of_getLsbD_eq fun i hi => ?_
  rw [getLsbD_f0 _ y z hi, hones, BitVec.getLsbD_allOnes, if_pos (decide_eq_true hi)]

theorem f0_zero (y z : Word) : f0 0 y z = z := by
  refine BitVec.eq_of_getLsbD_eq fun i hi => ?_
  rw [getLsbD_f0 _ y z hi, BitVec.ofNat_eq_ofNat, BitVec.getLsbD_zero, if_neg Bool.false_ne_true]

theorem f2_self (x z : Word) : f2 x x z = z := by
  simp [f2]

theorem f3_allOnes (y z : Word) : f3 0xFFFFFFFF y z = ~~~y := by
  have hor : 0xFFFFFFFF ||| ~~~z = BitVec.allOnes 32 := BitVec.allOnes_or
  rw [f3, hor, BitVec.xor_allOnes]

/-- Settles O17: `f0` selects bit by bit, `f1` is `f0` with its arguments cycled, and the examples are evaluated. -/
theorem mixingFunctions : Obligations.MixingFunctions := by
  refine ⟨fun x y z => ⟨rfl, rfl, rfl, rfl, fun i hi => ⟨getLsbD_f0 x y z hi, ?_⟩, f0_allOnes y z, f0_zero y z, ?_, ?_,
    f2_self x z, f3_allOnes y z⟩, by decide⟩
  · rw [f1_eq_f0, getLsbD_f0 z x y hi]
  · rw [f1_eq_f0, f0_allOnes]
  · rw [f1_eq_f0, f0_zero]

/-! ## What a round uses in each phase (R104, R106, R107) -/

/-- The phase of each of the 64 rounds, with the rounds that belong to it. -/
theorem phase_cases {i : Nat} (h : i < 64) :
    (rphase i = 0 ∧ i ≤ 15) ∨ (rphase i = 1 ∧ 15 < i ∧ i ≤ 31) ∨ (rphase i = 2 ∧ 31 < i ∧ i ≤ 47) ∨
      (rphase i = 3 ∧ 47 < i) := by
  unfold rphase; omega

/-- The mixing function of a round, by the range of rounds it lies in. -/
theorem mix_eq_of_range {i : Nat} (h : i < 64) (x y z : Word) : mix i x y z =
    if i ≤ 15 then f0 x y z else if i ≤ 31 then f1 x y z else if i ≤ 47 then f2 x y z else f3 x y z := by
  obtain ⟨hp, h15⟩ | ⟨hp, h15, h31⟩ | ⟨hp, h31, h47⟩ | ⟨hp, h47⟩ := phase_cases h
  · simp only [mix, hp, if_pos h15]
  · simp only [mix, hp, if_neg h15.not_ge, if_pos h31]
  · rw [if_neg (by omega), if_neg h31.not_ge, if_pos h47]; simp only [mix, hp]
  · rw [if_neg (by omega), if_neg (by omega), if_neg h47.not_ge]; simp only [mix, hp]

/-- The rotation amounts as R106 lists them: a row per phase, in it an amount for each round modulo 4. -/
def rotationTable : List (List Nat) := [[7, 12, 17, 22], [5, 9, 14, 20], [4, 11, 16, 23], [6, 10, 15, 21]]

/-- `sTab` reads the table of R106. -/
theorem sTab_eq_rotationTable {i : Nat} (h : i < 64) :
    some (sTab i) = rotationTable[i / 16]?.bind fun row => row[i % 4]? := by
  have inRow (row : List Nat) (hrow : row.length = 4) : some (row.getD (i % 4) 0) = row[i % 4]? := by
    have hlt : i % 4 < row.length := by omega
    rw [List.getD_eq_getElem row 0 hlt, List.getElem?_eq_getElem hlt]
  rw [sTab, ← rphase]
  obtain ⟨hp, -⟩ | ⟨hp, -⟩ | ⟨hp, -⟩ | ⟨hp, -⟩ := phase_cases h <;> rw [hp] <;> exact inRow _ rfl

/-- Every rotation amount is an entry of the table, and so lies in 4..23. -/
theorem sTab_bounds {i : Nat} (h : i < 64) : 4 ≤ sTab i ∧ sTab i ≤ 23 := by
  obtain ⟨row, hrow, hs⟩ := Option.bind_eq_some_iff.1 (sTab_eq_rotationTable h).symm
  have entries : ∀ row ∈ rotationTable, ∀ s ∈ row, 4 ≤ s ∧ s ≤ 23 := by decide
  exact entries row (List.mem_of_getElem? hrow) _ (List.mem_of_getElem? hs)

/-- `rotl32` by less than the width of a word is the library's rotation to the left. -/
theorem rotl32_eq_rotateLeft (x : Word) {s : Nat} (h : s < 32) : rotl32 x s = x.rotateLeft s :=
  (BitVec.rotateLeft_eq_rotateLeftAux_of_lt h).symm

/-- The message-word index of a round, by its phase. -/
theorem idxTab_eq_of_phase {i : Nat} (h : i < 64) :
    some (idxTab i) =
      ([i % 16, (1 + 5 * (i % 16)) % 16, (5 + 3 * (i % 16)) % 16, 7 * (i % 16) % 16] : List Nat)[i / 16]? := by
  rw [idxTab, ← rphase]
  obtain ⟨hp, -⟩ | ⟨hp, -⟩ | ⟨hp, -⟩ | ⟨hp, -⟩ := phase_cases h <;> rw [hp] <;> rfl

/-- Settles O18: mixing function, rotation amount and message word in each phase; a rotation by at most 23 is a true one. -/
theorem roundSchedule : Obligations.RoundSchedule := by
  intro i hi
  obtain ⟨hmin, hmax⟩ := sTab_bounds hi
  exact ⟨mix_eq_of_range hi, rfl, sTab_eq_rotationTable hi, hmin, hmax, fun x => rotl32_eq_rotateLeft x (by omega),
    fun _ _ => rfl, idxTab_eq_of_phase hi⟩

end Sys2Proof.Machine
end

section
/-!
Absorbing one byte (41_context_and_feed R141): the two cases of `absorb`, and the occupancy after a whole block.
-/

namespace Sys2Proof.Machine

/-- Settles O24: the two cases of `absorb`; the occupancy after 63 is 0 modulo 64, the counter's wrap included. -/
theorem absorbOneByte : Obligations.AbsorbOneByte := by
  intro c sl b i
  refine ⟨absorb_cnt c sl b, absorb_ph c sl b, fun hi => ?_, fun hi => ?_⟩
  · rw [absorb_of_partial c sl b hi]; exact ⟨rfl, rfl⟩
  · rw [absorb_of_full c sl b hi]
    have hwrap : (sl.cnt + 1).toNat % 64 = (sl.cnt.toNat + 1) % 64 := count_add_mod sl.cnt 1
    exact ⟨rfl, by rw [hwrap]; omega⟩

end Sys2Proof.Machine
end

section
/-!
What a slot holds (10_state R25, R27, R36) as bytes are absorbed, and that finalizing it gives the reference digest of its
message (42_finalization R170 to R176).
-/

namespace Sys2Proof.Machine

/-! ## The blocks of a message that grows -/

/-- A complete block of a message is the same whatever bytes follow the message. -/
theorem blockAt_append {msg : List Byte} {j : Nat} (h : 64 * j + 64 ≤ msg.length) (bs : List Byte) :
    blockAt (msg ++ bs) j = blockAt msg j := by
  refine Vector.ext fun i hi => ?_
  have hlt : 64 * j + i < msg.length := by omega
  rw [blockAt, blockAt, Vector.getElem_ofFn, Vector.getElem_ofFn, List.getD_append _ _ _ _ hlt]

/-- The running state after a number of complete blocks of a message depends on those blocks alone. -/
theorem foldl_blocks_append {msg : List Byte} {k : Nat} (h : 64 * k ≤ msg.length) (bs : List Byte) :
    (List.range k).foldl (fun h j => compress h (blockAt (msg ++ bs) j)) iv =
      (List.range k).foldl (fun h j => compress h (blockAt msg j)) iv := by
  refine List.foldl_ext _ _ _ fun a j hj => ?_
  have hjk : j < k := List.mem_range.1 hj
  rw [blockAt_append (by omega)]

/-- A byte that completes no block leaves the running state as it is. -/
theorem hashBlocks_concat_of_partial {msg : List Byte} (h : msg.length % 64 ≠ 63) (b : Byte) :
    hashBlocks (msg ++ [b]) = hashBlocks msg := by
  have hblocks : (msg ++ [b]).length / 64 = msg.length / 64 := by rw [List.length_append, List.length_singleton]; omega
  rw [hashBlocks, hblocks, foldl_blocks_append (Nat.mul_div_le ..), hashBlocks]

/-- A byte that completes a block compresses it. -/
theorem hashBlocks_concat_of_full {msg : List Byte} (h : msg.length % 64 = 63) (b : Byte) :
    hashBlocks (msg ++ [b]) = compress (hashBlocks msg) (blockAt (msg ++ [b]) (msg.length / 64)) := by
  have hblocks : (msg ++ [b]).length / 64 = msg.length / 64 + 1 := by
    rw [List.length_append, List.length_singleton]; omega
  rw [hashBlocks, hblocks, List.range_succ, List.foldl_append, foldl_blocks_append (Nat.mul_div_le ..)]; rfl

/-! ## A slot that holds a message (R25, R27, R36) -/

/-- A context just created holds the empty message. -/
theorem represents_createContext (sl : Slot) : Represents (createContext sl) [] :=
  ⟨rfl, rfl, nofun⟩

section Represents
variable {sl : Slot} {msg : List Byte}

/-- The occupancy of a slot is that of its message, although CNT counts modulo 2^64. -/
theorem Represents.occupancy (hr : Represents sl msg) : sl.cnt.toNat % 64 = msg.length % 64 := by
  obtain ⟨hcnt, -, -⟩ := hr
  rw [hcnt, BitVec.toNat_ofNat]; omega

/-- A byte of the buffer below the occupancy is the message's. -/
theorem Represents.buf_getElem (hr : Represents sl msg) {j : Nat} (hj : j < msg.length % 64) (h64 : j < 64) :
    sl.buf[j] = msg.getD (64 * (msg.length / 64) + j) 0 := by
  obtain ⟨-, -, hbuf⟩ := hr
  rw [← hbuf j hj, ← blockByte, blockByte_of_lt _ h64]

/-- The buffer with the next byte stored holds one byte more of the message with that byte. -/
theorem Represents.buf_set (hr : Represents sl msg) (b : Byte) {j : Nat} (hj : j ≤ msg.length % 64) (h64 : j < 64) :
    (sl.buf.setIfInBounds (msg.length % 64) b)[j] = (msg ++ [b]).getD (64 * (msg.length / 64) + j) 0 := by
  obtain hlt | rfl := Nat.lt_or_eq_of_le hj
  · have hin : 64 * (msg.length / 64) + j < msg.length := by omega
    rw [Vector.getElem_setIfInBounds_ne h64 hlt.ne', hr.buf_getElem hlt h64, List.getD_append _ _ _ _ hin]
  · rw [Vector.getElem_setIfInBounds_self, Nat.div_add_mod]; simp

/-- The buffer that the next byte fills is the message's next block. -/
theorem Represents.buf_set_eq_blockAt (hr : Represents sl msg) (h : msg.length % 64 = 63) (b : Byte) :
    sl.buf.setIfInBounds 63 b = blockAt (msg ++ [b]) (msg.length / 64) := by
  refine Vector.ext fun j hj => ?_
  rw [← h, hr.buf_set b (by omega) hj, blockAt, Vector.getElem_ofFn]

/-- Absorbing a byte appends it to the message. -/
theorem Represents.absorb (hr : Represents sl msg) (c : Nat) (b : Byte) :
    Represents (absorb c sl b) (msg ++ [b]) := by
  have hocc := hr.occupancy
  have ⟨hcnt, hh, _⟩ := hr
  have hlen : (msg ++ [b]).length = msg.length + 1 := by simp
  refine ⟨by rw [absorb_cnt, hcnt, hlen, BitVec.ofNat_add]; rfl, ?_⟩
  by_cases hfull : msg.length % 64 = 63
  · rw [absorb_of_full c sl b (hocc.trans hfull)]
    refine ⟨?_, fun j hj => by omega⟩
    rw [hashBlocks_concat_of_full hfull, ← hr.buf_set_eq_blockAt hfull, hh]
  · rw [absorb_of_partial c sl b (hocc ▸ hfull)]
    refine ⟨by rw [hashBlocks_concat_of_partial hfull, hh], fun j hj => ?_⟩
    have hblock : (msg ++ [b]).length / 64 = msg.length / 64 := by omega
    rw [← blockByte, blockByte_of_lt _ (by omega), hblock, ← hr.buf_set b (by omega) (by omega)]
    simp only [hocc]

/-- Absorbing bytes appends them to the message. -/
theorem Represents.absorbAll (hr : Represents sl msg) (c : Nat) (bs : List Byte) :
    Represents (absorbAll c sl bs) (msg ++ bs) := by
  induction bs generalizing sl msg with
  | nil => simpa using hr
  | cons b bs ih => simpa using ih (hr.absorb c b)

end Represents

/-! ## Padding and length field (R170 to R172) -/

/-- The padding count of a message's length, as the reference has it. -/
theorem padCount_ofNat (n : Nat) : padCount (BitVec.ofNat 64 n) - 1 = (119 - n % 64) % 64 := by
  rw [padCount, BitVec.toNat_ofNat]; split <;> omega

/-- A byte of a 32-bit field is a byte of the value. -/
theorem extractLsb'_extractLsb'_byte (v : Count) (start : Nat) {k : Nat} (h : k + 8 ≤ 32) :
    (v.extractLsb' start 32).extractLsb' k 8 = v.extractLsb' (start + k) 8 := by
  refine BitVec.eq_of_getLsbD_eq fun i hi => ?_
  have hbit : k + i < 32 := by omega
  simp [hi, hbit, Nat.add_assoc]

/-- The bytes of a 64-bit value are its 8-bit fields, least significant first. -/
theorem le64bytes_eq_map (v : Count) : le64bytes v = (List.range 8).map fun i => v.extractLsb' (8 * i) 8 := by
  simp (disch := decide) only [le64bytes, le32bytes, extractLsb'_extractLsb'_byte]; rfl

/-- Byte `i` of a number taken modulo 2^64. -/
theorem extractLsb'_ofNat_byte (n : Nat) {i : Nat} (hi : i < 8) :
    (BitVec.ofNat 64 n).extractLsb' (8 * i) 8 = BitVec.ofNat 8 (n / 256 ^ i) := by
  have hpow : 256 ^ i = 2 ^ (8 * i) := by rw [Nat.pow_mul]
  refine BitVec.eq_of_getLsbD_eq fun k hk => ?_
  have hbit : 8 * i + k < 64 := by omega
  simp only [BitVec.getLsbD_extractLsb', BitVec.getLsbD_ofNat, hpow, Nat.testBit_div_two_pow, hk, hbit, Nat.add_comm k,
    decide_true, Bool.true_and]

/-- What finalization absorbs for a slot that holds `msg` is what the reference appends to `msg`. -/
theorem padded_eq (msg : List Byte) : padded msg = msg ++ finalBytes (BitVec.ofNat 64 msg.length) := by
  have hbits : bitCount (BitVec.ofNat 64 msg.length) = BitVec.ofNat 64 (8 * msg.length) := by
    rw [bitCount, Nat.mul_comm, BitVec.ofNat_mul]; rfl
  rw [finalBytes, padding, padCount_ofNat, hbits, le64bytes_eq_map, ← List.append_assoc, padded]
  refine congrArg _ (List.map_congr_left fun i hi => ?_)
  rw [extractLsb'_ofNat_byte _ (List.mem_range.1 hi)]

/-- Finalizing a slot leaves the reference digest of its message in H (R175, R176). -/
theorem Represents.finalizeSlot_h {sl : Slot} {msg : List Byte} (hr : Represents sl msg) (c : Nat) :
    (finalizeSlot c sl).h = md5 msg := by
  obtain ⟨-, hh, -⟩ := hr.absorbAll c (finalBytes sl.cnt)
  obtain ⟨hcnt, -, -⟩ := hr
  rw [finalizeSlot, hh, hcnt, md5, padded_eq]

/-- The working context of a DIGEST ends with the reference digest of its bytes in H (R180). -/
theorem digestSlot_h (c : Nat) (sl : Slot) (bs : List Byte) : (digestSlot c sl bs).h = md5 bs :=
  ((represents_createContext sl).absorbAll c bs).finalizeSlot_h c

end Sys2Proof.Machine
end

section
/-!
Phases (41_context_and_feed R144, R148): what a command on a valid slot leaves and answers, by its entry in the phase table.
-/

namespace Sys2Proof.Machine

/-- An accepted FEED leaves its slot ABSORBING, or in its phase if N = 0. -/
theorem feedSlot_ph (cid n : Nat) (sl : Slot) (bs : List Byte) :
    (feedSlot cid n sl bs).ph = if n = 0 then sl.ph else .absorbing := by
  cases n with
  | zero => exact absorbAll_ph cid sl bs
  | succ n => rfl

/-- The slot a command leaves has the phase of the phase table. -/
theorem resultSlot_ph {i : Instr} {sl : Slot} {p : Phase} (hp : phaseTable i sl.ph = .ok p) (ws : List Word) :
    (resultSlot i ws sl).ph = p := by
  cases i with
  | init cid => exact Except.ok.inj hp
  | digest cid n => exact Except.ok.inj hp
  | final cid =>
    cases hph : sl.ph with
    | idle | finalized => rw [hph] at hp; cases hp
    | fresh | absorbing => rw [hph] at hp; exact Except.ok.inj hp
  | feed cid n =>
    rw [resultSlot, feedSlot_ph]
    cases hph : sl.ph with
    | idle | finalized => rw [hph] at hp; cases hp
    | fresh => rw [hph] at hp; exact Except.ok.inj hp
    | absorbing => rw [hph] at hp; rw [ite_self]; exact Except.ok.inj hp

section Exec
variable {i : Instr} {s : State} {sl : Slot} (hs : s.slots[i.cid]? = some sl) (hq : i.payload ≤ s.cq.length)
include hs hq

/-- A command that the phase table gives an error leaves its slot as it is and answers one status word with the error. -/
theorem exec_of_phase_error {e : Err} (he : phaseTable i sl.ph = .error e) :
    ∃ t, exec i s = .next t ∧ t.slots[i.cid]? = some sl ∧
      (out t).drop (out s).length = [status i.opcode i.cid e t] := by
  refine ⟨_, exec_of_enough i s hq, ?_⟩
  simp only [performed, hs, he]
  refine ⟨hs, ?_⟩
  rw [out_complete]
  exact List.drop_left ..

/-- A command that the phase table gives a phase leaves its result in its slot and answers ERR_OK and its digest words. -/
theorem exec_of_phase_ok {p : Phase} (hp : phaseTable i sl.ph = .ok p) :
    ∃ t, exec i s = .next t ∧ t.slots[i.cid]? = some (resultSlot i (s.cq.take i.payload) sl) ∧
      (out t).drop (out s).length = status i.opcode i.cid .ok t :: resultDigest i (s.cq.take i.payload) sl := by
  have hlt : i.cid < s.slots.length := (List.getElem?_eq_some_iff.1 hs).1
  refine ⟨_, exec_of_enough i s hq, ?_⟩
  simp only [performed, hs, hp]
  refine ⟨List.getElem?_set_self hlt, ?_⟩
  rw [out_complete]
  exact List.drop_left ..

end Exec

/-- Settles O33: each entry of the phase table, through `exec_of_phase_ok` and `exec_of_phase_error`. -/
theorem phaseTransitions : Obligations.PhaseTransitions := by
  intro i s sl hs hq
  cases i with
  | init cid =>
    obtain ⟨t, ht, hd, -⟩ := exec_of_phase_ok hs hq rfl
    exact ⟨t, _, ht, hd, rfl⟩
  | feed cid n =>
    cases hph : sl.ph with
    | idle | finalized =>
      obtain ⟨t, ht, hd, hout⟩ := exec_of_phase_error hs hq (by rw [hph]; rfl)
      exact ⟨t, sl, ht, hd, rfl, hout⟩
    | fresh | absorbing =>
      have hp := congrArg (phaseTable (.feed cid n)) hph
      obtain ⟨t, ht, hd, -⟩ := exec_of_phase_ok hs hq hp
      exact ⟨t, _, ht, hd, resultSlot_ph hp _⟩
  | final cid =>
    cases hph : sl.ph with
    | idle | finalized =>
      obtain ⟨t, ht, hd, hout⟩ := exec_of_phase_error hs hq (by rw [hph]; rfl)
      exact ⟨t, sl, ht, hd, rfl, hout⟩
    | fresh | absorbing =>
      obtain ⟨t, ht, hd, hout⟩ := exec_of_phase_ok hs hq (congrArg (phaseTable (.final cid)) hph)
      exact ⟨t, _, ht, hd, rfl, hout⟩
  | digest cid n =>
    obtain ⟨t, ht, hd, hout⟩ := exec_of_phase_ok hs hq rfl
    refine ⟨t, _, ht, hd, rfl, rfl, rfl, rfl, ?_⟩
    rw [hout, resultDigest, digestSlot_h]; rfl

/-! ## FEED with N = 0 (R144) -/

/-- A FEED with N = 0 that is accepted leaves its slot as it is. -/
theorem resultSlot_emptyFeed (cid : Nat) (ws : List Word) (sl : Slot) : resultSlot (.feed cid 0) ws sl = sl := rfl

/-- A FEED with N = 0 leaves every slot as it is. -/
theorem performed_emptyFeed_slots (cid : Nat) (ws : List Word) (s : State) :
    (performed (.feed cid 0) ws s).slots = s.slots := by
  obtain ⟨-, h⟩ | ⟨_, _, -, -, h⟩ | ⟨sl, _, hs, -, h⟩ := performed_cases (.feed cid 0) ws s
  · rw [h, complete_slots]
  · rw [h, complete_slots]
  · obtain ⟨hlt, rfl⟩ := List.getElem?_eq_some_iff.1 hs
    rw [h, complete_slots, setSlot_slots, resultSlot_emptyFeed, List.set_getElem_self hlt]

/-- A FEED answers one status word with the error it reports. -/
theorem out_performed_feed (cid n : Nat) (ws : List Word) (s : State) :
    out (performed (.feed cid n) ws s) =
      out s ++ [status 0x02 cid (commandErr (.feed cid n) s) (performed (.feed cid n) ws s)] := by
  obtain ⟨ds, hstream, hlen⟩ := stream_performed (.feed cid n) ws s
  obtain rfl : ds = [] := List.eq_nil_of_length_eq_zero hlen
  simpa [stream, Instr.opcode, Instr.cid] using hstream

/-- Settles O29: no payload word is missing, the slot written is the slot there was, and the answer is FEED's. -/
theorem emptyFeedIsANoOp : Obligations.EmptyFeedIsANoOp := by
  intro cid s
  refine ⟨_, exec_of_enough (.feed cid 0) s (Nat.zero_le _), performed_emptyFeed_slots cid _ _, performed_cq ..,
    performed_ds .., _, out_performed_feed .., ?_⟩
  obtain ⟨-, -, herr⟩ := status_fields 0x02 cid (commandErr (.feed cid 0) s) (performed (.feed cid 0) [] s)
  refine herr.trans ?_
  cases hs : s.slots[cid]? with
  | none => simp only [commandErr, Instr.cid, hs, errCode]
  | some sl => cases hph : sl.ph <;> simp only [commandErr, Instr.cid, hs, hph, phaseTable, errCode]

end Sys2Proof.Machine
end

section
/-!
Errors (60_exceptions R203 to R206, R208): a command whose checks fail does `raise E` and nothing else, whatever its payload,
and an ILLEGAL word does so by itself.
-/

namespace Sys2Proof.Machine

/-! ## The effect of `raise E` (R205) -/

section RaiseErr
variable (op : Byte) (cid : Nat) (e : Err) (s : State)

@[simp] theorem raiseErr_slots : (raiseErr op cid e s).slots = s.slots := rfl
@[simp] theorem raiseErr_ds : (raiseErr op cid e s).ds = .waitCmd := rfl
@[simp] theorem raiseErr_cq : (raiseErr op cid e s).cq = s.cq := rfl

/-- One status word is appended, and no digest word. -/
@[simp] theorem out_raiseErr : out (raiseErr op cid e s) = out s ++ [status op cid e s] := out_complete ..

@[simp] theorem stream_raiseErr : stream (raiseErr op cid e s) = stream s ++ [status op cid e s] := stream_complete ..

end RaiseErr

/-! ## Which error a command reports (R208) -/

theorem commandErr_of_noSlot {i : Instr} {s : State} (h : s.slots[i.cid]? = none) : commandErr i s = .badCid := by
  simp only [commandErr, h]

theorem commandErr_of_phase_error {i : Instr} {s : State} {sl : Slot} {e : Err} (hs : s.slots[i.cid]? = some sl)
    (he : phaseTable i sl.ph = .error e) : commandErr i s = e := by
  simp only [commandErr, hs, he]

theorem commandErr_of_phase_ok {i : Instr} {s : State} {sl : Slot} {p : Phase} (hs : s.slots[i.cid]? = some sl)
    (hp : phaseTable i sl.ph = .ok p) : commandErr i s = .ok := by
  simp only [commandErr, hs, hp]

/-! ## Where an error is raised -/

/-- A command that reports an error raises it, whatever its payload words. -/
theorem performed_of_error {i : Instr} {s : State} (h : commandErr i s ≠ .ok) (ws : List Word) :
    performed i ws s = raiseErr i.opcode i.cid (commandErr i s) s := by
  obtain ⟨hs, hperf⟩ | ⟨sl, e, hs, he, hperf⟩ | ⟨sl, p, hs, hp, -⟩ := performed_cases i ws s
  · rw [hperf, commandErr_of_noSlot hs, raiseErr_eq]
  · rw [hperf, commandErr_of_phase_error hs he, raiseErr_eq]
  · exact absurd (commandErr_of_phase_ok hs hp) h

/-- A framed command that reports an error takes its payload and raises the error, whatever the payload words. -/
theorem exec_of_error {i : Instr} {s : State} {p rest : List Word} (hp : p.length = i.payload)
    (h : commandErr i s ≠ .ok) :
    exec i { s with cq := p ++ rest } =
      .next (raiseErr i.opcode i.cid (commandErr i s) { s with cq := rest }) := by
  rw [exec_framed i s p rest hp]
  exact congrArg _ (performed_of_error (s := { s with cq := rest }) h p)

/-- A framed command word that reports an error raises it, with the word's OP and CID. -/
theorem step_of_error {s : State} {w : Word} {p rest : List Word} (h : Ready s) (hq : s.cq = w :: p ++ rest)
    (hp : p.length = (decode w).payload) (he : reportedErr w s ≠ .ok) :
    step s = .next (raiseErr (opField w) (cidField w).toNat (reportedErr w s) { s with cq := rest }) := by
  rw [step_of_ready h hq, runWord]
  cases hw : decode w with
  | illegal why =>
    obtain rfl : p = [] := List.eq_nil_of_length_eq_zero (by rw [hp, hw]; rfl)
    rw [reportedErr_of_illegal hw]; rfl
  | instr i =>
    obtain ⟨hop, hcid, -⟩ := (decode_eq_instr_iff w i).1 hw
    rw [reportedErr_of_instr hw] at he ⊢
    rw [hop, hcid]
    exact exec_of_error (by rw [hp, hw]; rfl) he

/-- An ILLEGAL word raises ERR_ILLEGAL and takes no other word (R204, R206). -/
theorem step_of_illegal {s : State} {w : Word} {rest : List Word} {why : Illegal} (h : Ready s) (hq : s.cq = w :: rest)
    (hw : decode w = .illegal why) :
    step s = .next (raiseErr (opField w) (cidField w).toNat .illegal { s with cq := rest }) := by
  have herr := reportedErr_of_illegal hw s
  rw [← herr]
  exact step_of_error (p := []) h hq (by rw [hw]; rfl) (by rw [herr]; nofun)

/-! ## The obligations -/

/-- Settles O11: the ERR field is the code of `reportedErr`, whose cases are those of R208. -/
theorem errorsHaveTheirPriority : Obligations.ErrorsHaveTheirPriority := by
  intro s w p rest h hq hp
  obtain ⟨t, ds, hstep, -, -, hstream, -⟩ := step_answers h hq hp
  obtain ⟨-, -, herr⟩ := status_fields (opField w) (cidField w).toNat (reportedErr w s) t
  refine ⟨t, _, ds, hstep, hstream, herr.trans ?_⟩
  cases hw : decode w with
  | illegal why => rw [reportedErr_of_illegal hw]; rfl
  | instr i =>
    rw [reportedErr_of_instr hw]
    cases hs : s.slots[i.cid]? with
    | none => simp only [commandErr_of_noSlot hs, hs, errCode]
    | some sl =>
      cases i with
      | init cid | digest cid n => simp only [commandErr, hs, phaseTable, errCode]
      | feed cid n | final cid => cases hph : sl.ph <;> simp only [commandErr, hs, hph, phaseTable, errCode]

/-- Settles O12: the step is `raise E` by `step_of_error`. -/
theorem errorsChangeNoContext : Obligations.ErrorsChangeNoContext := by
  intro s w p rest h hq hp he
  exact ⟨_, step_of_error h hq hp he, raiseErr_slots .., stream_raiseErr .., raiseErr_ds .., raiseErr_cq ..⟩

/-- Settles O13: such a word is ILLEGAL by R76, and the status word of ERR_ILLEGAL speaks of no slot. -/
theorem illegalWordsAreReported : Obligations.IllegalWordsAreReported := by
  intro s w rest h hq hfields
  obtain ⟨-, -, -, -, illegal⟩ := decoderIsTotalOnFiveKinds w
  obtain ⟨⟨why, hw⟩, -⟩ := illegal (by omega)
  refine ⟨_, step_of_illegal h hq hw, raiseErr_slots .., raiseErr_cq .., raiseErr_ds .., ?_⟩
  rw [stream_raiseErr, status_of_noSlot _ _ _ (.inl rfl), BitVec.ofNat_toNat, BitVec.setWidth_eq]
  rfl

/-- Settles O14: the command raises ERR_BAD_CID, whose status word speaks of no slot. -/
theorem badSlotNumbersAreReported : Obligations.BadSlotNumbersAreReported := by
  intro i s hcid hq
  have herr : commandErr i { s with cq := s.cq.drop i.payload } = .badCid :=
    commandErr_of_noSlot (List.getElem?_eq_none hcid)
  refine ⟨_, exec_of_enough i s hq, ?_⟩
  rw [performed_of_error (by rw [herr]; nofun), herr]
  refine ⟨raiseErr_slots .., raiseErr_ds .., raiseErr_cq .., ?_⟩
  rw [out_raiseErr, status_of_noSlot _ _ _ (.inr rfl)]
  rfl

/-- Settles O15: a framed command that reports an error answers the same state for every payload (`exec_of_error`), a command
with words missing waits (`exec_of_short`), and an ILLEGAL word is the only word taken (`step_of_illegal`). -/
theorem erroneousPayloadIsConsumed : Obligations.ErroneousPayloadIsConsumed := by
  refine ⟨fun i s p rest hp hq hphase => ?_, fun i s hq => ?_, fun s w rest why h hq hw => ?_⟩
  · have herr : commandErr i s ≠ .ok := by
      cases hs : s.slots[i.cid]? with
      | none => rw [commandErr_of_noSlot hs]; nofun
      | some sl => obtain he | he := hphase sl hs <;> rw [commandErr_of_phase_error hs he] <;> nofun
    have raised {p' : List Word} (hp' : p'.length = i.payload) := exec_of_error (rest := rest) hp' herr
    have given : exec i s = exec i { s with cq := p ++ rest } := by rw [← hq]
    refine ⟨_, given.trans (raised hp), raiseErr_slots .., raiseErr_cq .., raiseErr_ds .., ?_,
      fun p' hp' => raised (hp'.trans hp)⟩
    rw [out_raiseErr]; exact List.length_append
  · obtain ⟨op, -, hexec⟩ := exec_of_short i s hq
    exact ⟨_, hexec, rfl, rfl, nofun, rfl⟩
  · exact ⟨_, step_of_illegal h hq hw, raiseErr_cq .., raiseErr_ds ..⟩

end Sys2Proof.Machine
end

section
/-!
The host's moves (70_reset_and_hazards R242): the step in which the host makes its next move, and what asserting reset leaves
behind (R230).
-/

namespace Sys2Proof.Machine

/-! ## The host's next move -/

/-- A move on the ports or on the reset input that the host can make is the whole step. -/
theorem step_of_hostMove {s t : State} {m : HostMove} {rest : List HostMove} (hhost : s.host = m :: rest)
    (hm : m ≠ .letEngine) (ht : hostMove m { s with host := rest } = some t) : step s = .next t := by
  unfold step agentStep
  cases m with
  | letEngine => exact absurd rfl hm
  | write w | read | assertReset | releaseReset => simp only [hhost, ht]

/-- The host never holds when its next move asserts reset (R230). -/
theorem step_of_assertReset {s : State} {rest : List HostMove} (hhost : s.host = .assertReset :: rest) :
    step s = .next (assertReset { s with host := rest }) :=
  step_of_hostMove hhost nofun rfl

/-! ## The slots when reset is asserted -/

/-- Asserting reset keeps NCTX (R231). -/
@[simp] theorem assertReset_nctx (s : State) : (assertReset s).nctx = s.nctx := by
  simp [State.nctx]

/-- A slot that asserting reset leaves is the reset slot but for the model's own count of free values (log entry 7). -/
theorem resetSlot_with_draws_zero (sl : Slot) : { resetSlot sl with draws := 0 } = Slot.reset := rfl

/-- Every slot after reset is asserted is the reset of the slot with the same number. -/
theorem assertReset_slot (s : State) {j : Nat} (h : j < s.nctx) :
    ∃ sl, s.slots[j]? = some sl ∧ (assertReset s).slots[j]? = some (resetSlot sl) := by
  have hj : s.slots[j]? = some s.slots[j] := List.getElem?_eq_getElem h
  exact ⟨s.slots[j], hj, by rw [assertReset_slots, List.getElem?_map, hj]; rfl⟩

/-- Settles O52: the step is `assertReset` (`step_of_assertReset`), whose slots are those of `State.resetWith` but for the count
of free values. -/
theorem resetAtAnyTime : Obligations.ResetAtAnyTime := by
  intro s rest hhost
  refine ⟨_, step_of_assertReset hhost, assertReset_nctx _, ?_, rfl, rfl, rfl, rfl, rfl, rfl⟩
  intro j hj
  rw [assertReset_nctx] at hj
  obtain ⟨sl, -, hslot⟩ := assertReset_slot _ hj
  exact ⟨resetSlot sl, hslot, rfl, rfl, rfl, rfl, by rw [resetSlot_with_draws_zero, resetWith_slot s.config hj]⟩

end Sys2Proof.Machine
end

section
/-!
The encoder and the assembler (30_encoding R71 to R77, R83, R84): encode and decode are inverse to each other, the payload words
of a span carry it, and FEEDL cuts a span in order.
-/

namespace Sys2Proof.Machine

/-! ## Encode and decode (R71 to R76) -/

/-- The word that encodes a well-formed command has its OP, CID and N in its fields. -/
theorem encode_fields (i : Instr) : Laws.EncodeFields.Statement i := by
  cases i with
  | init cid => exact Laws.EncodeFields.init cid
  | feed cid n => exact Laws.EncodeFields.feed cid n
  | final cid => exact Laws.EncodeFields.final cid
  | digest cid n => exact Laws.EncodeFields.digest cid n

/-- A command is well-formed exactly when its CID and N fit their fields. -/
theorem wellFormed_iff (i : Instr) : i.wellFormed = true ↔ i.cid ≤ maxCid ∧ i.count ≤ maxN := by
  cases i <;> simp [Instr.wellFormed, Instr.cid, Instr.count]

/-- A command that some word decodes to is well-formed: the fields it is read from are no wider. -/
theorem wellFormed_of_decode {w : Word} {i : Instr} (h : decode w = .instr i) : i.wellFormed = true := by
  obtain ⟨-, hcid, hn⟩ := (decode_eq_instr_iff w i).1 h
  rw [wellFormed_iff, ← hcid, ← hn]
  exact ⟨Nat.le_of_lt_succ (cidField w).isLt, Nat.le_of_lt_succ (nField w).isLt⟩

/-- Settles O4: the three fields of the encoding are the command's, and those are what the decoder reads. -/
theorem decodeOfEncodeIsTheCommand : Obligations.DecodeOfEncodeIsTheCommand := by
  intro i hi
  exact (decode_eq_instr_iff _ i).2 (encode_fields i hi)

/-- Settles O5: a word is its three fields, which are those of the command it decodes to. -/
theorem encodeOfDecodeIsTheWord : Obligations.EncodeOfDecodeIsTheWord := by
  intro w i h
  obtain ⟨hop, hcid, hn⟩ := (decode_eq_instr_iff w i).1 h
  refine ⟨?_, wellFormed_of_decode h⟩
  calc encode i = opField w ++ cidField w ++ nField w := by
        rw [encode, ← hop, ← hcid, ← hn, BitVec.ofNat_toNat, BitVec.ofNat_toNat, BitVec.setWidth_eq, BitVec.setWidth_eq]
    _ = w := fields_append w

/-- Settles O1: each of the twelve words is decoded. -/
theorem specWordsDecode : Obligations.SpecWordsDecode := by
  unfold Obligations.SpecWordsDecode; decide

/-! ## The payload of a span (R77, R83) -/

/-- The assembler writes `ceil(len/4)` payload words. -/
theorem packWords_length (bs : List Byte) : (packWords bs).length = payloadWords bs.length := by
  induction bs using packWords.induct with
  | case1 | case2 | case3 | case4 => simp [packWords, payloadWords]
  | case5 a b c d rest ih =>
    simp only [packWords, List.length_cons, ih, payloadWords_eq]; omega

/-- The bytes of the payload words of a span are the span and then the zeros that fill the last word. -/
theorem payloadBytes_packWords (bs : List Byte) : ∃ zeros, payloadBytes (packWords bs) = bs ++ zeros := by
  induction bs using packWords.induct with
  | case1 => exact ⟨[], rfl⟩
  | case2 a => exact ⟨[0, 0, 0], by simp [packWords]⟩
  | case3 a b => exact ⟨[0, 0], by simp [packWords]⟩
  | case4 a b c => exact ⟨[0], by simp [packWords]⟩
  | case5 a b c d rest ih =>
    obtain ⟨zeros, h⟩ := ih
    exact ⟨zeros, by simp [packWords, h]⟩

/-- The span read from the payload words of a byte sequence is that sequence. -/
theorem span_packWords (bs : List Byte) : span bs.length (packWords bs) = bs := by
  obtain ⟨zeros, h⟩ := payloadBytes_packWords bs
  rw [span, h, List.take_left]

/-- Settles O7, by the recursion of `packWords`, four bytes a word. -/
theorem packedSpanIsRead : Obligations.PackedSpanIsRead := fun bs => ⟨packWords_length bs, span_packWords bs⟩

/-! ## FEEDL (R84) -/

/-- With fuel for every byte, the chunks are the span. -/
theorem chunksOf_flatten {fuel : Nat} {bs : List Byte} (h : bs.length < fuel) : (chunksOf fuel bs).flatten = bs := by
  induction fuel generalizing bs with
  | zero => exact absurd h (Nat.not_lt_zero _)
  | succ fuel ih =>
    rw [chunksOf]
    split
    case isTrue => simp
    case isFalse hlong =>
      have hrest : (bs.drop maxN).length < fuel := by rw [List.length_drop]; simp only [maxN] at hlong ⊢; omega
      rw [List.flatten_cons, ih hrest, List.take_append_drop]

/-- No chunk is longer than a FEED may be. -/
theorem length_le_of_mem_chunksOf {fuel : Nat} {bs c : List Byte} (hc : c ∈ chunksOf fuel bs) : c.length ≤ maxN := by
  induction fuel generalizing bs with
  | zero => cases hc
  | succ fuel ih =>
    rw [chunksOf] at hc
    split at hc
    case isTrue hshort => rw [List.mem_singleton.1 hc]; exact hshort
    case isFalse =>
      obtain rfl | hc := List.mem_cons.1 hc
      · exact List.length_take_le ..
      · exact ih hc

/-- Settles O8, by the recursion of `chunksOf`. -/
theorem feedlChunksAreTheSpan : Obligations.FeedlChunksAreTheSpan := by
  intro bs
  exact ⟨chunksOf_flatten (Nat.lt_succ_self _), fun c hc => length_le_of_mem_chunksOf hc, fun h => if_pos h⟩

end Sys2Proof.Machine
end

section
/-!
Everything a step leaves (00_scope R9, R14), said once more and by effect: a move of the host, held words drained, a part of a
payload taken, or a command answered. The invariants are proved from it, and no proof after it unfolds a step.
-/

namespace Sys2Proof.Machine

/-! ## A step, but for the moves the host has left -/

/-- A turn the engine is given is its step, or nothing. -/
theorem engineTurn_cases (s : State) : engineStep s = .next (engineTurn s) ∨ engineTurn s = s := by
  unfold engineTurn
  split
  case h_1 t h => exact .inl h
  case h_2 | h_3 => exact .inr rfl

/-- A step is a move of the host, or, whatever moves it has left, the engine's step or nothing. -/
theorem step_inversion {s t : State} (h : step s = .next t) :
    (∃ m rest, s.host = m :: rest ∧ hostMove m { s with host := rest } = some t) ∨
    ∃ hosts, hosts <:+ s.host ∧ (engineStep { s with host := hosts } = .next t ∨ t = { s with host := hosts }) := by
  obtain ⟨m, rest, hhost, -, hm⟩ | ⟨rest, hhost, rfl⟩ | hengine := step_cases h
  · exact .inl ⟨m, rest, hhost, hm⟩
  · exact .inr ⟨rest, hhost ▸ List.suffix_cons .., engineTurn_cases _⟩
  · exact .inr ⟨s.host, List.suffix_rfl, .inl hengine⟩

/-- A property that does not depend on the host's moves to come, and that every host move and every engine step keeps, is kept
by every step. -/
theorem step_keeps {P : State → Prop} (anyHost : ∀ s hosts, P s → P { s with host := hosts })
    (moves : ∀ m s t, P s → hostMove m s = some t → P t) (engine : ∀ s t, P s → engineStep s = .next t → P t)
    {s t : State} (hs : P s) (h : step s = .next t) : P t := by
  obtain ⟨m, rest, -, hm⟩ | ⟨hosts, -, hengine | rfl⟩ := step_inversion h
  · exact moves m _ t (anyHost s rest hs) hm
  · exact engine _ t (anyHost s hosts hs) hengine
  · exact anyHost s hosts hs

/-! ## The host's moves (R242) -/

/-- The host gives the engine a turn. -/
theorem step_of_letEngine {s : State} {rest : List HostMove} (hhost : s.host = .letEngine :: rest) :
    step s = .next (engineTurn { s with host := rest }) := by
  simp only [step, agentStep, hhost]

/-- While the host holds its move, the engine steps. -/
theorem step_of_hostHold {s : State} {m : HostMove} {rest : List HostMove} (hhost : s.host = m :: rest)
    (hm : m ≠ .letEngine) (hnone : hostMove m { s with host := rest } = none) : step s = engineStep s := by
  unfold step agentStep
  cases m with
  | letEngine => exact absurd rfl hm
  | write w | read | assertReset | releaseReset => simp only [hhost, hnone]

/-- A write that is made puts the word at the end of CQ, where there is room, or is discarded in reset (R232, R237). -/
theorem hostWrite_cases {w : Word} {s t : State} (h : hostWrite w s = some t) :
    (s.rst = true ∧ t = s) ∨ (s.rst = false ∧ s.cq.length < s.cqDepth ∧ t = { s with cq := s.cq ++ [w] }) := by
  unfold hostWrite at h
  split at h
  case isTrue hr => exact .inl ⟨hr, (Option.some.inj h).symm⟩
  case isFalse hr =>
    split at h
    case isTrue room => exact .inr ⟨Bool.eq_false_iff.2 hr, room, (Option.some.inj h).symm⟩
    case isFalse => cases h

/-- A read that is made takes the oldest word of RQ (R32). -/
theorem hostRead_cases {s t : State} (h : hostRead s = some t) :
    ∃ w rest, s.rq = w :: rest ∧ t = { s with rq := rest, got := s.got ++ [w] } := by
  unfold hostRead at h
  split at h
  case h_1 => cases h
  case h_2 w rest hrq => exact ⟨w, rest, hrq, (Option.some.inj h).symm⟩

/-! ## The engine's step -/

/-- What the engine leaves in a step that answers `t`: the words held back drained; a part of a payload taken, and its command
waiting for the rest; or a command answered, its slot written if it raised no error. -/
inductive EngineLeft (s t : State) : Prop where
  | drained (held : s.pend ≠ []) (e : t = drain s)
  | waits (op : PayloadOp) (cid n : Nat) (taken : List Word) (none : s.pend = [])
      (sound : DecoderSound s.ds → DecoderSound (.payload op cid n taken))
      (e : t = { s with cq := [], ds := .payload op cid n taken })
  | raised (op : Byte) (cid : Nat) (err : Err) (rest : List Word) (none : s.pend = []) (taken : rest <:+ s.cq)
      (e : t = raiseErr op cid err { s with cq := rest })
  | did (i : Instr) (ws rest : List Word) (sl : Slot) (p : Phase) (none : s.pend = []) (taken : rest <:+ s.cq)
      (enough : i.payload ≤ ws.length) (hs : s.slots[i.cid]? = some sl) (hp : phaseTable i sl.ph = .ok p)
      (e : t = complete i.opcode i.cid .ok (resultDigest i ws sl)
        (setSlot i.cid (resultSlot i ws sl) { s with cq := rest }))

/-- A performed command raises an error or does what it is to do. -/
theorem EngineLeft.of_performed {s : State} {i : Instr} {ws rest : List Word} (none : s.pend = []) (taken : rest <:+ s.cq)
    (enough : i.payload ≤ ws.length) : EngineLeft s (performed i ws { s with cq := rest }) := by
  obtain ⟨-, h⟩ | ⟨_, _, -, -, h⟩ | ⟨sl, p, hs, hp, h⟩ := performed_cases i ws { s with cq := rest }
  · exact .raised _ _ _ rest none taken h
  · exact .raised _ _ _ rest none taken h
  · exact .did i ws rest sl p none taken enough hs hp h

/-- A command word with all its payload words, or with some of them. -/
theorem EngineLeft.of_exec {s t : State} {i : Instr} {rest : List Word} (none : s.pend = []) (taken : rest <:+ s.cq)
    (hi : i.wellFormed = true) (h : exec i { s with cq := rest } = .next t) : EngineLeft s t := by
  obtain hshort | henough := Nat.lt_or_ge rest.length i.payload
  · obtain ⟨op, hop, hexec⟩ := exec_of_short i { s with cq := rest } hshort
    obtain rfl := Host.Outcome.next.inj (hexec.symm.trans h)
    obtain ⟨hcid, hn⟩ := (wellFormed_iff i).1 hi
    refine .waits op i.cid i.count rest none (fun _ => ⟨hcid, hn, ?_⟩) rfl
    rwa [hop, payloadInstr_payload] at hshort
  · obtain rfl := Host.Outcome.next.inj ((exec_of_enough i { s with cq := rest } henough).symm.trans h)
    exact .of_performed none ((List.drop_suffix ..).trans taken) (List.length_take_of_le henough).ge

/-- Going on with a payload: all the words are there now, or not yet. -/
theorem EngineLeft.of_resume {s : State} {op : PayloadOp} {cid n : Nat} {taken : List Word} (none : s.pend = [])
    (hds : s.ds = .payload op cid n taken) : EngineLeft s (resume op cid n taken s) := by
  obtain hshort | henough := Nat.lt_or_ge s.cq.length (payloadWords n - taken.length)
  · refine .waits op cid n (taken ++ s.cq) none (fun hsound => ?_) (resume_of_short op cid n taken s hshort)
    rw [hds] at hsound
    obtain ⟨hcid, hn, -⟩ := hsound
    exact ⟨hcid, hn, by rw [List.length_append]; omega⟩
  · rw [resume_of_enough op cid n taken s henough]
    refine .of_performed none (List.drop_suffix ..) ?_
    rw [payloadInstr_payload, List.length_append, List.length_take_of_le henough]; omega

/-- A step of the engine happens out of reset and with room in RQ (R32), and leaves one of four things. -/
theorem engineStep_left {s t : State} (h : engineStep s = .next t) :
    s.rst = false ∧ s.rq.length < s.rspDepth ∧ EngineLeft s t := by
  obtain ⟨hrst, room, hdid⟩ := engineStep_cases h
  refine ⟨hrst, room, ?_⟩
  cases hdid with
  | drained held e => exact .drained held e
  | ran w rest i none _ hq hw e => exact .of_exec none (hq ▸ List.suffix_cons ..) (wellFormed_of_decode hw) e
  | reported w rest _ none _ hq _ e => exact .raised _ _ _ rest none (hq ▸ List.suffix_cons ..) e
  | resumed op cid n taken none hds _ e => exact e ▸ .of_resume none hds

/-- What a step of the engine never touches: reset, the configuration, the host and what it has read. -/
theorem engineStep_frame {s t : State} (h : engineStep s = .next t) :
    t.rst = false ∧ t.config = s.config ∧ t.host = s.host ∧ t.got = s.got := by
  obtain ⟨hrst, -, hleft⟩ := engineStep_left h
  cases hleft with
  | drained _ e | waits _ _ _ _ _ _ e | raised _ _ _ _ _ _ e => exact e ▸ ⟨hrst, rfl, rfl, rfl⟩
  | did _ _ _ _ _ _ _ _ _ _ e => exact e ▸ ⟨hrst, by simp [State.config], rfl, rfl⟩

/-! ## The configuration and the slots -/

/-- Settles O46: host moves and engine steps keep the number of slots and both depths. -/
theorem configurationIsFixed : Obligations.ConfigurationIsFixed := by
  intro s t
  refine step_keeps (P := fun u => u.config = s.config) (fun _ _ hu => hu) (fun m u v hu hm => ?_)
    (fun u v hu he => ?_) rfl
  · rw [← hu]
    cases m with
    | write w => obtain ⟨-, rfl⟩ | ⟨-, -, rfl⟩ := hostWrite_cases hm <;> rfl
    | read => obtain ⟨_, _, -, rfl⟩ := hostRead_cases hm; rfl
    | assertReset => obtain rfl := Option.some.inj hm; simp [State.config]
    | releaseReset | letEngine => obtain rfl := Option.some.inj hm; rfl
  · obtain ⟨-, hconfig, -, -⟩ := engineStep_frame he
    exact hconfig.trans hu

/-- A property of each slot by itself, kept by a slot's reset and by every command that raises no error, is kept by every
step. -/
theorem step_keeps_slots {P : Slot → Prop} (reset : ∀ sl, P sl → P (resetSlot sl))
    (command : ∀ i ws sl p, i.payload ≤ ws.length → P sl → phaseTable i sl.ph = .ok p → P (resultSlot i ws sl))
    {s t : State} (hs : ∀ sl ∈ s.slots, P sl) (h : step s = .next t) : ∀ sl ∈ t.slots, P sl := by
  refine step_keeps (P := fun u => ∀ sl ∈ u.slots, P sl) (fun _ _ hu => hu) (fun m u v hu hm => ?_)
    (fun u v hu he => ?_) hs h
  · cases m with
    | write w => obtain ⟨-, rfl⟩ | ⟨-, -, rfl⟩ := hostWrite_cases hm <;> exact hu
    | read => obtain ⟨_, _, -, rfl⟩ := hostRead_cases hm; exact hu
    | assertReset =>
      obtain rfl := Option.some.inj hm
      rw [assertReset_slots, List.forall_mem_map]
      exact fun sl hsl => reset sl (hu sl hsl)
    | releaseReset | letEngine => obtain rfl := Option.some.inj hm; exact hu
  · obtain ⟨-, -, hleft⟩ := engineStep_left he
    cases hleft with
    | drained _ e | waits _ _ _ _ _ _ e | raised _ _ _ _ _ _ e => exact e ▸ hu
    | did i ws rest sl p _ _ enough hsl hp e =>
      subst e
      intro sl' hsl'
      obtain hold | rfl := List.mem_or_eq_of_mem_set hsl'
      · exact hu sl' hold
      · exact command i ws sl p enough (hu sl (List.mem_of_getElem? hsl)) hp

end Sys2Proof.Machine
end

section
/-!
Counting bytes and compressions (41_context_and_feed R141, R145), and the padding and length field (42_finalization R170 to
R174).
-/

namespace Sys2Proof.Machine

/-! ## Absorbing a span (R145) -/

/-- Absorbing bytes counts them, modulo 2^64. -/
theorem absorbAll_cnt (c : Nat) (sl : Slot) (bs : List Byte) :
    (absorbAll c sl bs).cnt = sl.cnt + BitVec.ofNat 64 bs.length := by
  induction bs generalizing sl with
  | nil => exact (BitVec.add_zero _).symm
  | cons b bs ih =>
    rw [absorbAll_cons, ih, absorb_cnt, List.length_cons, Nat.add_comm, BitVec.ofNat_add, BitVec.add_assoc]; rfl

/-- The occupancy goes on modulo 64. -/
theorem absorbAll_occupancy (c : Nat) (sl : Slot) (bs : List Byte) :
    (absorbAll c sl bs).cnt.toNat % 64 = (sl.cnt.toNat + bs.length) % 64 := by
  rw [absorbAll_cnt, count_add_mod]

/-- Counting one byte moves the occupancy on by one, modulo 64. -/
theorem count_succ_mod (x : Count) : (x + 1).toNat % 64 = (x.toNat + 1) % 64 := count_add_mod x 1

/-- A byte is compressed with its block exactly if it completes it. -/
theorem absorb_draws (c : Nat) (sl : Slot) (b : Byte) :
    (absorb c sl b).draws = sl.draws + (sl.cnt.toNat % 64 + 1) / 64 := by
  by_cases hfull : sl.cnt.toNat % 64 = 63
  · rw [absorb_of_full c sl b hfull, hfull]
  · rw [absorb_of_partial c sl b hfull, Nat.div_eq_of_lt (by omega)]; rfl

/-- As many blocks are compressed as are completed. -/
theorem absorbAll_draws (c : Nat) (sl : Slot) (bs : List Byte) :
    (absorbAll c sl bs).draws = sl.draws + (sl.cnt.toNat % 64 + bs.length) / 64 := by
  induction bs generalizing sl with
  | nil => simp
  | cons b bs ih =>
    rw [absorbAll_cons, ih, absorb_draws, absorb_cnt, count_succ_mod, List.length_cons]; omega

/-- Settles O25: bytes, occupancy and compressions, counted byte by byte. -/
theorem feedCompressionCount : Obligations.FeedCompressionCount := by
  intro c sl bs o
  exact ⟨absorbAll_cnt c sl bs, by rw [absorbAll_occupancy, Nat.mod_add_mod], absorbAll_draws c sl bs⟩

/-! ## A span that does not fill the buffer -/

/-- Byte `j` of a buffer after a byte is stored in it. -/
theorem getD_setIfInBounds (buf : Vector Byte 64) {k : Nat} (hk : k < 64) (b : Byte) (j : Nat) :
    (buf.setIfInBounds k b).toList.getD j 0 = if j = k then b else buf.toList.getD j 0 := by
  rw [List.getD_eq_getElem?_getD, List.getD_eq_getElem?_getD, Vector.toList_setIfInBounds, List.getElem?_set]
  split
  case isTrue h => subst h; simp [hk]
  case isFalse h => rw [if_neg (Ne.symm h)]

/-- Short of a full block, H stays and the span is stored in order from the occupancy on; no other byte changes. -/
theorem absorbAll_of_partial (c : Nat) (sl : Slot) (bs : List Byte) (h : sl.cnt.toNat % 64 + bs.length < 64) :
    (absorbAll c sl bs).h = sl.h ∧ ∀ j, (absorbAll c sl bs).buf.toList.getD j 0 =
      if sl.cnt.toNat % 64 ≤ j ∧ j < sl.cnt.toNat % 64 + bs.length then bs.getD (j - sl.cnt.toNat % 64) 0
      else sl.buf.toList.getD j 0 := by
  induction bs generalizing sl with
  | nil => exact ⟨rfl, fun j => (if_neg (by simp)).symm⟩
  | cons b bs ih =>
    rw [List.length_cons] at h ⊢
    have hocc : (sl.cnt + 1).toNat % 64 = sl.cnt.toNat % 64 + 1 := by rw [count_succ_mod]; omega
    have hstore := absorb_of_partial c sl b (by omega)
    obtain ⟨hh, hbuf⟩ := ih (absorb c sl b) (by rw [absorb_cnt, hocc]; omega)
    refine ⟨hh.trans (by rw [hstore]), fun j => ?_⟩
    rw [absorbAll_cons, hbuf j, absorb_cnt, hocc, hstore, getD_setIfInBounds _ (Nat.mod_lt _ (by decide))]
    obtain hlt | rfl | hgt := Nat.lt_trichotomy j (sl.cnt.toNat % 64)
    · rw [if_neg (by omega), if_neg (by omega), if_neg (by omega)]
    · rw [if_neg (by omega), if_pos rfl, if_pos (by omega), Nat.sub_self]; rfl
    · have hsub : j - sl.cnt.toNat % 64 = j - (sl.cnt.toNat % 64 + 1) + 1 := by omega
      rw [if_neg (show j ≠ sl.cnt.toNat % 64 by omega), hsub, List.getD_cons_succ]
      exact if_congr (by omega) rfl rfl

/-- Settles O26, from `absorbAll_of_partial`. -/
theorem partialFeedKeepsOtherBytes : Obligations.PartialFeedKeepsOtherBytes := by
  intro c sl bs j o h
  obtain ⟨hh, hbuf⟩ := absorbAll_of_partial c sl bs h
  exact ⟨hh, fun hin => (hbuf j).trans (if_pos hin), fun hout => (hbuf j).trans (if_neg hout)⟩

/-! ## Padding (R170, R171) -/

/-- The padding count is between 1 and 64 and leaves 8 bytes of room in the last block. -/
theorem padCount_spec (l : Count) : 1 ≤ padCount l ∧ padCount l ≤ 64 ∧ (l.toNat + padCount l) % 64 = 56 := by
  unfold padCount; split <;> omega

/-- Settles O34: each of the two cases of `padCount`, and that two counts with the same remainder differ by 64. -/
theorem paddingLeavesRoomForTheLength : Obligations.PaddingLeavesRoomForTheLength := by
  intro l last
  obtain ⟨hmin, hmax, hroom⟩ := padCount_spec l
  exact ⟨fun h => if_pos h, fun h => if_neg (Nat.not_lt.2 h), hmin, hmax, hroom, fun k hk hk56 => by omega, rfl⟩

theorem finalBytes_length (l : Count) : (finalBytes l).length = padCount l + 8 := by
  obtain ⟨hmin, -, -⟩ := padCount_spec l
  simp [finalBytes, padding, le64bytes, le32bytes]; omega

/-! ## The length field (R172) -/

/-- The bit count is the byte count moved up by three bits. -/
theorem getLsbD_bitCount (l : Count) {i : Nat} (hi : i < 64) :
    (bitCount l).getLsbD i = (decide (3 ≤ i) && l.getLsbD (i - 3)) := by
  have hshift : bitCount l = l <<< 3 := (BitVec.shiftLeft_eq_mul_twoPow l 3).symm
  rw [hshift, BitVec.getLsbD_shiftLeft, decide_eq_true hi, Bool.true_and, ← decide_not]
  simp only [Nat.not_lt]

/-- The low bits of the bit count are those of the byte count and three zeros below them. -/
theorem extractLsb'_bitCount_low (l : Count) {n : Nat} (hn : n ≤ 61) :
    (bitCount l).extractLsb' 0 (n + 3) = l.extractLsb' 0 n ++ 0#3 := by
  refine BitVec.eq_of_getLsbD_eq fun i hi => ?_
  rw [BitVec.getLsbD_extractLsb', Nat.zero_add, getLsbD_bitCount l (by omega), BitVec.getLsbD_append]
  by_cases hlow : i < 3
  · simp [hlow]
  · have hbit : i - 3 < n := by omega
    simp [hlow, hbit, hi, Nat.not_lt.1 hlow]

/-- Any higher field of the bit count is the field of the byte count three bits below. -/
theorem extractLsb'_bitCount_high (l : Count) {start len : Nat} (h : start + 3 + len ≤ 64) :
    (bitCount l).extractLsb' (start + 3) len = l.extractLsb' start len := by
  refine BitVec.eq_of_getLsbD_eq fun i hi => ?_
  have hsub : start + 3 + i - 3 = start + i := by omega
  have hge : 3 ≤ start + 3 + i := by omega
  rw [BitVec.getLsbD_extractLsb', getLsbD_bitCount l (by omega), BitVec.getLsbD_extractLsb', hsub, decide_eq_true hge,
    Bool.true_and]

/-- Settles O35: the bit count is a shift, so its fields are fields of the byte count, and its bytes are `le64bytes_eq_map`'s. -/
theorem lengthFieldIsTheBitCount : Obligations.LengthFieldIsTheBitCount := by
  intro l
  refine ⟨BitVec.toNat_mul .., ?_, extractLsb'_bitCount_low l (by decide), ?_, rfl, fun i hi => ?_⟩
  · exact BitVec.extractLsb'_eq_self.symm.trans (extractLsb'_bitCount_low l (Nat.le_refl 61))
  · exact (extractLsb'_bitCount_high l (Nat.le_refl 64)).trans
      (BitVec.extractLsb'_append_extractLsb'_eq_extractLsb' (show 32 = 29 + 3 from rfl)).symm
  · rw [le64bytes_eq_map, List.getElem?_map, List.getElem?_range hi]; rfl

/-! ## Finalization (R174, R175) -/

/-- Finalizing counts the padding and the length field. -/
theorem finalizeSlot_cnt (c : Nat) (sl : Slot) :
    (finalizeSlot c sl).cnt = sl.cnt + BitVec.ofNat 64 (padCount sl.cnt) + 8 := by
  rw [finalizeSlot, absorbAll_cnt, finalBytes_length, BitVec.ofNat_add, BitVec.add_assoc]; rfl

/-- A finalized slot has an empty buffer. -/
theorem finalizeSlot_occupancy (c : Nat) (sl : Slot) : (finalizeSlot c sl).cnt.toNat % 64 = 0 := by
  obtain ⟨-, -, hroom⟩ := padCount_spec sl.cnt
  rw [finalizeSlot, absorbAll_occupancy, finalBytes_length]; omega

/-- Settles O36: the padding and the length field complete one block or two. -/
theorem finalizationCompressesOneOrTwoBlocks : Obligations.FinalizationCompressesOneOrTwoBlocks := by
  intro c sl
  rw [finalizeSlot, absorbAll_draws, finalBytes_length, padCount]
  split <;> omega

end Sys2Proof.Machine
end

section
/-!
The invariants (10_state R22, R31, R32, R36, R37; 42_finalization R177, R181; 70_reset_and_hazards R230): what holds of each slot,
of the queues, the decoder and the reset input, kept by every step.
-/

namespace Sys2Proof.Machine

/-! ## What a slot's phase says of its fields -/

/-- A command that is accepted leaves its slot sound for its new phase. -/
theorem resultSlot_sound {i : Instr} {sl : Slot} {p : Phase} (ws : List Word) (hs : SlotSound sl)
    (hp : phaseTable i sl.ph = .ok p) : SlotSound (resultSlot i ws sl) := by
  cases i with
  | init cid => exact ⟨rfl, rfl⟩
  | feed cid n =>
    cases n with
    | zero => rw [resultSlot_emptyFeed]; exact hs
    | succ n => exact trivial
  | final cid => exact finalizeSlot_occupancy cid sl
  | digest cid n => exact ⟨rfl, rfl, rfl⟩

/-! ## The message a slot holds (R36) -/

/-- A FRESH slot holds the empty message and an ABSORBING one a message of at least one byte. -/
def HoldsMessage (sl : Slot) : Prop :=
  (sl.ph = .fresh → Represents sl []) ∧ (sl.ph = .absorbing → ∃ msg, msg ≠ [] ∧ Represents sl msg)

/-- `MessagesHeld` is `HoldsMessage` of every slot. -/
theorem messagesHeld_iff (s : State) : MessagesHeld s ↔ ∀ sl ∈ s.slots, HoldsMessage sl := Iff.rfl

/-- A slot in another phase need hold none. -/
theorem holdsMessage_of_ph {sl : Slot} (hfresh : sl.ph ≠ .fresh) (habsorbing : sl.ph ≠ .absorbing) : HoldsMessage sl :=
  ⟨fun h => absurd h hfresh, fun h => absurd h habsorbing⟩

/-- A slot that takes FEED and FINAL holds some message. -/
theorem HoldsMessage.represents {sl : Slot} (h : HoldsMessage sl) (hph : sl.ph = .fresh ∨ sl.ph = .absorbing) :
    ∃ msg, Represents sl msg := by
  obtain ⟨hfresh, habsorbing⟩ := h
  obtain hph | hph := hph
  · exact ⟨[], hfresh hph⟩
  · obtain ⟨msg, -, hr⟩ := habsorbing hph; exact ⟨msg, hr⟩

/-- FEED and FINAL are accepted on FRESH and ABSORBING slots alone (R148). -/
theorem ph_of_feed_ok {cid n : Nat} {q p : Phase} (h : phaseTable (.feed cid n) q = .ok p) : q = .fresh ∨ q = .absorbing := by
  cases q with
  | idle | finalized => cases h
  | fresh => exact .inl rfl
  | absorbing => exact .inr rfl

/-- An accepted FEED appends its span to the message (R36, R143). -/
theorem Represents.feedSlot {sl : Slot} {msg : List Byte} (hr : Represents sl msg) (cid n : Nat) (bs : List Byte) :
    Represents (feedSlot cid n sl bs) (msg ++ bs) := by
  unfold Machine.feedSlot
  split <;> exact hr.absorbAll cid bs

/-- A command that is accepted leaves its slot holding the message that its phase asks for. -/
theorem resultSlot_holdsMessage {i : Instr} {ws : List Word} {sl : Slot} {p : Phase} (enough : i.payload ≤ ws.length)
    (hs : HoldsMessage sl) (hp : phaseTable i sl.ph = .ok p) : HoldsMessage (resultSlot i ws sl) := by
  cases i with
  | init cid => exact ⟨fun _ => represents_createContext sl, nofun⟩
  | feed cid n =>
    cases n with
    | zero => rw [resultSlot_emptyFeed]; exact hs
    | succ n =>
      obtain ⟨msg, hr⟩ := hs.represents (ph_of_feed_ok hp)
      refine ⟨nofun, fun _ => ⟨msg ++ span (n + 1) ws, fun hnil => ?_, hr.feedSlot cid (n + 1) _⟩⟩
      have hempty : (span (n + 1) ws).length = 0 := by rw [(List.append_eq_nil_iff.1 hnil).2]; rfl
      rw [span_length] at hempty
      simp only [Instr.payload, payloadWords_eq] at enough
      omega
  | final cid => exact holdsMessage_of_ph nofun nofun
  | digest cid n => exact holdsMessage_of_ph nofun nofun

/-- Settles O58: an IDLE slot need hold no message, and every command that is accepted leaves what its phase asks for. -/
theorem slotsAlwaysHoldMessages : Obligations.SlotsAlwaysHoldMessages := by
  refine ⟨fun c => ?_, fun s t hs h => ?_⟩
  · rw [messagesHeld_iff, resetWith_slots]
    intro sl hsl
    rw [List.eq_of_mem_replicate hsl]
    exact holdsMessage_of_ph nofun nofun
  · exact step_keeps_slots (P := HoldsMessage) (fun sl _ => holdsMessage_of_ph nofun nofun)
      (fun i ws sl p enough hsl hp => resultSlot_holdsMessage enough hsl hp) hs h

/-! ## Queues and decoder -/

/-- RQ never holds more than RSP_DEPTH words after a response. -/
theorem respond_rq_length (ws : List Word) (s : State) (h : s.rq.length ≤ s.rspDepth) :
    (respond ws s).rq.length ≤ s.rspDepth := by
  rw [respond_rq ws s h]; exact List.length_take_le ..

/-- Draining keeps RQ within its capacity, and holds no word back that was not held back before. -/
theorem QueuesFit.drain {s : State} (h : QueuesFit s) : QueuesFit (drain s) := by
  obtain ⟨hrq, hcq, hpend, hds⟩ := h
  have hlen : (Machine.drain s).pend.length ≤ s.pend.length := by simp [Machine.drain]
  refine ⟨?_, hcq, hlen.trans hpend, fun hne => hds fun hnil => ?_⟩
  · simp only [Machine.drain, List.length_append, List.length_take]; omega
  · rw [hnil] at hlen; exact hne (List.eq_nil_of_length_eq_zero (Nat.le_zero.1 hlen))

/-- The end of a command holds back at most its own response. -/
theorem QueuesFit.complete {s : State} (h : QueuesFit s) (hnone : s.pend = []) (op : Byte) (cid : Nat) (e : Err)
    {digest : List Word} (hd : digest.length ≤ 4) : QueuesFit (complete op cid e digest s) := by
  obtain ⟨hrq, hcq, -, -⟩ := h
  refine ⟨respond_rq_length _ _ hrq, hcq, ?_, fun _ => rfl⟩
  rw [Machine.complete, respond_pend, hnone]
  simp only [List.nil_append, List.length_drop, List.length_cons]; omega

/-- Words taken from CQ leave it within its capacity. -/
theorem QueuesFit.take {s : State} (h : QueuesFit s) {rest : List Word} (taken : rest <:+ s.cq) :
    QueuesFit { s with cq := rest } := by
  obtain ⟨hrq, hcq, hpend, hds⟩ := h
  exact ⟨hrq, taken.length_le.trans hcq, hpend, hds⟩

theorem resultDigest_length_le (i : Instr) (ws : List Word) (sl : Slot) : (resultDigest i ws sl).length ≤ 4 := by
  rw [resultDigest_length]; split <;> omega

/-- An engine step keeps the queues within their capacities and the decoder sound. -/
theorem engineStep_keeps_queues {s t : State} (hq : QueuesFit s) (hd : DecoderSound s.ds) (h : engineStep s = .next t) :
    QueuesFit t ∧ DecoderSound t.ds := by
  obtain ⟨-, -, hleft⟩ := engineStep_left h
  cases hleft with
  | drained _ e => exact e ▸ ⟨hq.drain, hd⟩
  | waits op cid n taken none sound e =>
    obtain ⟨hrq, -, -, -⟩ := hq
    refine e ▸ ⟨⟨hrq, Nat.zero_le _, ?_, fun hne => absurd none hne⟩, sound hd⟩
    rw [none]; exact Nat.zero_le _
  | raised op cid err rest none taken e => exact e ▸ ⟨(hq.take taken).complete none op cid err (Nat.zero_le _), trivial⟩
  | did i ws rest sl p none taken _ _ _ e =>
    have hset : QueuesFit (setSlot i.cid (resultSlot i ws sl) { s with cq := rest }) := hq.take taken
    exact e ▸ ⟨hset.complete none _ _ _ (resultDigest_length_le i ws sl), trivial⟩

/-- A move of the host keeps the queues within their capacities and the decoder sound. -/
theorem hostMove_keeps_queues {m : HostMove} {s t : State} (hq : QueuesFit s) (hd : DecoderSound s.ds)
    (h : hostMove m s = some t) : QueuesFit t ∧ DecoderSound t.ds := by
  cases m with
  | write w =>
    obtain ⟨-, rfl⟩ | ⟨-, room, rfl⟩ := hostWrite_cases h
    · exact ⟨hq, hd⟩
    · obtain ⟨hrq, -, hpend, hds⟩ := hq
      exact ⟨⟨hrq, by rw [List.length_append]; exact room, hpend, hds⟩, hd⟩
  | read =>
    obtain ⟨w, rest, hword, rfl⟩ := hostRead_cases h
    obtain ⟨hrq, hcq, hpend, hds⟩ := hq
    rw [hword, List.length_cons] at hrq
    exact ⟨⟨Nat.le_of_succ_le hrq, hcq, hpend, hds⟩, hd⟩
  | assertReset =>
    obtain rfl := Option.some.inj h
    exact ⟨⟨Nat.zero_le _, Nat.zero_le _, Nat.zero_le _, fun _ => rfl⟩, trivial⟩
  | releaseReset | letEngine => obtain rfl := Option.some.inj h; exact ⟨hq, hd⟩

/-! ## The reset input (R230) -/

/-- While reset is asserted no move of the host changes what has its reset value. -/
theorem hostMove_keeps_reset {m : HostMove} {s t : State} (hs : ResetHolds s) (h : hostMove m s = some t) :
    ResetHolds t := by
  cases m with
  | write w =>
    obtain ⟨-, rfl⟩ | ⟨hrst, -, rfl⟩ := hostWrite_cases h
    · exact hs
    · intro hr; rw [hrst] at hr; cases hr
  | read =>
    obtain ⟨w, rest, hword, rfl⟩ := hostRead_cases h
    intro hr
    obtain ⟨⟨-, -, hrq, -⟩, -⟩ := hs hr
    rw [hrq] at hword; cases hword
  | assertReset =>
    obtain rfl := Option.some.inj h
    refine fun _ => ⟨⟨rfl, rfl, rfl, rfl⟩, ?_⟩
    rw [assertReset_slots, List.forall_mem_map]
    exact fun sl _ => rfl
  | releaseReset => obtain rfl := Option.some.inj h; exact nofun
  | letEngine => obtain rfl := Option.some.inj h; exact hs

/-! ## The invariant -/

/-- An engine step happens out of reset. -/
theorem engineStep_resetHolds {s t : State} (h : engineStep s = .next t) : ResetHolds t := by
  obtain ⟨hrst, -⟩ := engineStep_frame h
  intro hr; rw [hrst] at hr; cases hr

/-- Settles O56: part by part; the parameters by O46, the slots by `step_keeps_slots`, the other parts through host moves and
engine steps. -/
theorem invariantIsKept : Obligations.InvariantIsKept := by
  rintro s t ⟨hconfig, hq, hd, hr, hslots⟩ h
  obtain ⟨hq', hd'⟩ := step_keeps (P := fun u => QueuesFit u ∧ DecoderSound u.ds) (fun _ _ hu => hu)
    (fun _ _ _ ⟨hq, hd⟩ hm => hostMove_keeps_queues hq hd hm) (fun _ _ ⟨hq, hd⟩ he => engineStep_keeps_queues hq hd he)
    ⟨hq, hd⟩ h
  have hr' := step_keeps (P := ResetHolds) (fun _ _ hu => hu) (fun _ _ _ hu hm => hostMove_keeps_reset hu hm)
    (fun _ _ _ he => engineStep_resetHolds he) hr h
  have hslots' := step_keeps_slots (P := SlotSound) (fun _ _ => ⟨rfl, rfl, rfl⟩)
    (fun _ ws _ _ _ hsl hp => resultSlot_sound ws hsl hp) hslots h
  exact ⟨configurationIsFixed s t h ▸ hconfig, hq', hd', hr', hslots'⟩

/-- Settles O57: every slot is the reset slot, and the queues are empty. -/
theorem invariantHoldsAtReset : Obligations.InvariantHoldsAtReset := by
  have holds (c : Config) (hc : c.Valid) : Inv (State.resetWith c) := by
    refine ⟨(resetWith_config c).symm ▸ hc, ⟨Nat.zero_le _, Nat.zero_le _, Nat.zero_le _, fun h => absurd rfl h⟩, trivial,
      nofun, fun sl hsl => ?_⟩
    rw [List.eq_of_mem_replicate hsl]
    exact ⟨rfl, rfl, rfl⟩
  exact ⟨holds, holds presentedConfig (by decide)⟩

end Sys2Proof.Machine
end

section
/-!
The unspecified bytes BUF[OCC..63] (10_state R27): what two slots, and two states, that differ at most in them have in common
before and after every operation.
-/

namespace Sys2Proof.Machine

/-! ## Slots that differ at most in their unspecified bytes -/

/-- Storing the next byte in both buffers leaves them equal one byte further. -/
theorem SlotAlike.buf_set {a b : Slot} (h : SlotAlike a b) (x : Byte) {j : Nat} (hj : j ≤ a.cnt.toNat % 64) :
    (a.buf.setIfInBounds (a.cnt.toNat % 64) x).toList.getD j 0 =
      (b.buf.setIfInBounds (a.cnt.toNat % 64) x).toList.getD j 0 := by
  obtain ⟨-, -, -, hbuf⟩ := h
  have hlt : a.cnt.toNat % 64 < 64 := Nat.mod_lt _ (by decide)
  rw [getD_setIfInBounds _ hlt, getD_setIfInBounds _ hlt]
  split
  case isTrue => rfl
  case isFalse hne => exact hbuf j (Nat.lt_of_le_of_ne hj hne)

/-- Absorbing a byte: stored below the new occupancy in both, or compressed in the same block. -/
theorem SlotAlike.absorb {a b : Slot} (h : SlotAlike a b) (c : Nat) (x : Byte) :
    SlotAlike (absorb c a x) (absorb c b x) := by
  have ⟨hph, hh, hcnt, _⟩ := h
  by_cases hfull : a.cnt.toNat % 64 = 63
  · have hblock : a.buf.setIfInBounds 63 x = b.buf.setIfInBounds 63 x := by
      refine Vector.ext fun j hj => ?_
      have hbyte := h.buf_set x (j := j) (by omega)
      rwa [← blockByte, ← blockByte, blockByte_of_lt _ hj, blockByte_of_lt _ hj, hfull] at hbyte
    rw [absorb_of_full c a x hfull, absorb_of_full c b x (hcnt ▸ hfull), hblock, hh, hcnt]
    refine ⟨hph, rfl, rfl, fun j hj => ?_⟩
    rw [count_succ_mod, ← hcnt] at hj; omega
  · rw [absorb_of_partial c a x hfull, absorb_of_partial c b x (hcnt ▸ hfull)]
    refine ⟨hph, hh, congrArg (· + 1) hcnt, fun j hj => ?_⟩
    rw [count_succ_mod] at hj
    rw [← hcnt]
    exact h.buf_set x (by omega)

theorem SlotAlike.absorbAll {a b : Slot} (h : SlotAlike a b) (c : Nat) (bs : List Byte) :
    SlotAlike (absorbAll c a bs) (absorbAll c b bs) := by
  induction bs generalizing a b with
  | nil => exact h
  | cons x bs ih => exact ih (h.absorb c x)

/-- Creating a context leaves no byte of the buffer specified. -/
theorem slotAlike_createContext (a b : Slot) : SlotAlike (createContext a) (createContext b) :=
  ⟨rfl, rfl, rfl, nofun⟩

theorem slotAlike_zeroize (a b : Slot) : SlotAlike (zeroize a) (zeroize b) := ⟨rfl, rfl, rfl, fun _ _ => rfl⟩

theorem slotAlike_resetSlot (a b : Slot) : SlotAlike (resetSlot a) (resetSlot b) := ⟨rfl, rfl, rfl, fun _ _ => rfl⟩

/-- Slots alike stay so in a phase given to both. -/
theorem SlotAlike.withPh {a b : Slot} (h : SlotAlike a b) (p : Phase) : SlotAlike { a with ph := p } { b with ph := p } := by
  obtain ⟨-, hrest⟩ := h; exact ⟨rfl, hrest⟩

/-- Finalization absorbs the same bytes in both. -/
theorem SlotAlike.finalizeSlot {a b : Slot} (h : SlotAlike a b) (c : Nat) :
    SlotAlike (finalizeSlot c a) (finalizeSlot c b) := by
  have ⟨_, _, hcnt, _⟩ := h
  rw [Machine.finalizeSlot, Machine.finalizeSlot, hcnt]
  exact h.absorbAll c _

/-- A DIGEST has the same working context in every slot. -/
theorem slotAlike_digestSlot (c : Nat) (a b : Slot) (bs : List Byte) : SlotAlike (digestSlot c a bs) (digestSlot c b bs) :=
  ((slotAlike_createContext a b).absorbAll c bs).finalizeSlot c

/-- A command leaves slots alike if it finds them so. -/
theorem SlotAlike.resultSlot {a b : Slot} (h : SlotAlike a b) (i : Instr) (ws : List Word) :
    SlotAlike (resultSlot i ws a) (resultSlot i ws b) := by
  cases i with
  | init cid => exact slotAlike_createContext a b
  | feed cid n =>
    cases n with
    | zero => exact h
    | succ n => exact (h.absorbAll cid _).withPh .absorbing
  | final cid => exact (h.finalizeSlot cid).withPh .finalized
  | digest cid n => exact slotAlike_zeroize _ _

/-- A command answers the same digest words for slots alike. -/
theorem SlotAlike.resultDigest {a b : Slot} (h : SlotAlike a b) (i : Instr) (ws : List Word) :
    resultDigest i ws a = resultDigest i ws b := by
  cases i with
  | init cid => rfl
  | feed cid n => rfl
  | final cid => obtain ⟨-, hh, -⟩ := h.finalizeSlot cid; exact congrArg digestWords hh
  | digest cid n => obtain ⟨-, hh, -⟩ := slotAlike_digestSlot cid a b (span n ws); exact congrArg digestWords hh

/-! ## States that differ at most in the unspecified bytes of their slots -/

/-- A state alike to `s` is `s` with slots alike to its own. -/
theorem alike_iff {s t : State} : Alike s t ↔ ∃ sls, List.Forall₂ SlotAlike s.slots sls ∧ t = { s with slots := sls } := by
  constructor
  · intro h
    obtain ⟨hslots, hds, hcq, hrq, hpend, hrsp, hcqd, hrst, hhost, hgot⟩ := h
    refine ⟨t.slots, hslots, ?_⟩
    rw [hds, hcq, hrq, hpend, hrsp, hcqd, hrst, hhost, hgot]
  · rintro ⟨sls, hslots, rfl⟩
    exact ⟨hslots, rfl, rfl, rfl, rfl, rfl, rfl, rfl, rfl, rfl⟩

/-- Related options are both there, and related, or neither is. -/
theorem optionRel_cases {α β : Type} {R : α → β → Prop} {x : Option α} {y : Option β} (h : Option.Rel R x y) :
    (∃ a b, x = some a ∧ y = some b ∧ R a b) ∨ (x = none ∧ y = none) := by
  cases h with
  | some hab => exact .inl ⟨_, _, rfl, rfl, hab⟩
  | none => exact .inr ⟨rfl, rfl⟩

/-- The same write to slots alike. -/
theorem forall₂_set {l l' : List Slot} (h : List.Forall₂ SlotAlike l l') (c : Nat) {a b : Slot} (hab : SlotAlike a b) :
    List.Forall₂ SlotAlike (l.set c a) (l'.set c b) := by
  induction h generalizing c with
  | nil => exact .nil
  | cons hhd htl ih =>
    cases c with
    | zero => exact .cons hab htl
    | succ c => exact .cons hhd (ih c)

section Alike
variable {s : State} {sls : List Slot} (h : List.Forall₂ SlotAlike s.slots sls)
include h

/-- `s` with slots alike to its own. -/
theorem alike_withSlots : Alike s { s with slots := sls } := alike_iff.2 ⟨sls, h, rfl⟩

/-- The slots of a number are alike, or no such slot exists in either. -/
theorem alike_slot (c : Nat) : Option.Rel SlotAlike s.slots[c]? sls[c]? := by
  generalize s.slots = l at h
  induction h generalizing c with
  | nil => exact .none
  | cons hab _ ih =>
    cases c with
    | zero => exact .some hab
    | succ c => exact ih c

/-- The status word shows nothing of a slot but OCC and PH. -/
theorem status_alike (op : Byte) (cid : Nat) (e : Err) : status op cid e s = status op cid e { s with slots := sls } := by
  obtain ⟨a, b, ha, hb, hph, -, hcnt, -⟩ | ⟨ha, hb⟩ := optionRel_cases (alike_slot h cid)
  · cases e <;> simp only [status, ha, hb, occ, hph, hcnt]
  · simp only [status, ha, hb]

/-- The end of a command appends the same words in both. -/
theorem alike_complete (op : Byte) (cid : Nat) (e : Err) (digest : List Word) :
    Alike (complete op cid e digest s) (complete op cid e digest { s with slots := sls }) := by
  rw [complete, complete, ← status_alike h]
  exact alike_iff.2 ⟨sls, h, rfl⟩

/-- A command performed on both reads phases, occupancies and specified bytes, which are the same in both. -/
theorem alike_performed (i : Instr) (ws : List Word) :
    Alike (performed i ws s) (performed i ws { s with slots := sls }) := by
  obtain ⟨a, b, ha, hb, hab⟩ | ⟨ha, hb⟩ := optionRel_cases (alike_slot h i.cid)
  · have ⟨hph, _⟩ := hab
    cases hp : phaseTable i a.ph with
    | error e =>
      simp only [performed, ha, hb, ← hph, hp]
      exact alike_complete h _ _ _ _
    | ok p =>
      simp only [performed, ha, hb, ← hph, hp, ← hab.resultDigest i ws]
      exact alike_complete (s := setSlot i.cid _ s) (forall₂_set h i.cid (hab.resultSlot i ws)) _ _ _ _
  · simp only [performed, ha, hb]
    exact alike_complete h _ _ _ _

/-- Going on with a payload takes the same words in both. -/
theorem alike_resume (op : PayloadOp) (cid n : Nat) (taken : List Word) :
    Alike (resume op cid n taken s) (resume op cid n taken { s with slots := sls }) := by
  obtain hshort | henough := Nat.lt_or_ge s.cq.length (payloadWords n - taken.length)
  · rw [resume_of_short op cid n taken s hshort, resume_of_short op cid n taken { s with slots := sls } hshort]
    exact alike_iff.2 ⟨sls, h, rfl⟩
  · rw [resume_of_enough op cid n taken s henough, resume_of_enough op cid n taken { s with slots := sls } henough]
    exact alike_performed (s := { s with cq := s.cq.drop _ }) h _ _

end Alike

/-! ## Steps -/

/-- Outcomes alike: next states that are, or the same stop. -/
inductive OutcomeAlike : (o o' : Host.Outcome State Fault Refusal) → Prop where
  | next {s t : State} (h : Alike s t) : OutcomeAlike (.next s) (.next t)
  | fault (f : Fault) : OutcomeAlike (.fault f) (.fault f)
  | refused (r : Refusal) : OutcomeAlike (.refused r) (.refused r)

section Steps
variable {s : State} {sls : List Slot} (h : List.Forall₂ SlotAlike s.slots sls)
include h

theorem alike_exec (i : Instr) : OutcomeAlike (exec i s) (exec i { s with slots := sls }) := by
  cases i with
  | init cid => rw [execInit_eq, execInit_eq]; exact .next (alike_performed h _ _)
  | final cid => rw [execFinal_eq, execFinal_eq]; exact .next (alike_performed h _ _)
  | feed cid n => exact .next (alike_resume h .feed cid n [])
  | digest cid n => exact .next (alike_resume h .digest cid n [])

theorem alike_runWord (w : Word) : OutcomeAlike (runWord w s) (runWord w { s with slots := sls }) := by
  unfold runWord
  cases decode w with
  | instr i => exact alike_exec h i
  | illegal why => exact .next (alike_complete h _ _ _ _)

/-- The engine does the same in both, or stops in the same wait. -/
theorem alike_engineStep : OutcomeAlike (engineStep s) (engineStep { s with slots := sls }) := by
  obtain ⟨slots, ds, cq, rq, pend, rspDepth, cqDepth, rst, host, got⟩ := s
  cases rst with
  | true => exact .fault _
  | false =>
    obtain room | full := Nat.lt_or_ge rq.length rspDepth
    · rw [engineStep_of_room _ rfl room, engineStep_of_room _ rfl room]
      cases pend with
      | cons w ws => exact .next (alike_iff.2 ⟨sls, h, rfl⟩)
      | nil =>
        cases ds <;> cases cq
        case waitCmd.nil | payload.nil => exact .fault _
        case waitCmd.cons w rest =>
          exact alike_runWord (s := ⟨slots, .waitCmd, rest, rq, [], rspDepth, cqDepth, false, host, got⟩) h w
        case payload.cons op cid n taken w rest => exact .next (alike_resume h op cid n taken)
    · rw [engineStep_of_full _ rfl full, engineStep_of_full _ rfl full]; exact .fault _

/-- A turn given to the engine. -/
theorem alike_engineTurn : Alike (engineTurn s) (engineTurn { s with slots := sls }) := by
  have hstep := alike_engineStep h
  unfold engineTurn
  revert hstep
  generalize engineStep s = o
  generalize engineStep { s with slots := sls } = o'
  rintro (hab | _ | _)
  · exact hab
  · exact alike_withSlots h
  · exact alike_withSlots h

/-- A move of the host, made in both or in neither. -/
theorem alike_hostMove (m : HostMove) :
    Option.Rel Alike (hostMove m s) (hostMove m { s with slots := sls }) := by
  cases m with
  | write w =>
    simp only [hostMove, hostWrite]
    split
    · exact .some (alike_withSlots h)
    · split
      · exact .some (alike_iff.2 ⟨sls, h, rfl⟩)
      · exact .none
  | read =>
    simp only [hostMove, hostRead]
    cases s.rq with
    | nil => exact .none
    | cons w rest => exact .some (alike_iff.2 ⟨sls, h, rfl⟩)
  | assertReset =>
    refine .some (alike_iff.2 ⟨sls.map resetSlot, ?_, rfl⟩)
    rw [assertReset_slots, List.forall₂_map_left_iff, List.forall₂_map_right_iff]
    exact h.imp fun a b _ => slotAlike_resetSlot a b
  | releaseReset => exact .some (alike_iff.2 ⟨sls, h, rfl⟩)
  | letEngine => exact .some (alike_withSlots h)

end Steps

/-- A step of the machine. -/
theorem alike_step {s t : State} (h : Alike s t) : OutcomeAlike (step s) (step t) := by
  obtain ⟨sls, hslots, ht⟩ := alike_iff.1 h
  have htick : OutcomeAlike (engineStep s) (engineStep t) := by subst ht; exact alike_engineStep hslots
  cases hs : s.host with
  | nil =>
    have hhost : t.host = [] := by subst ht; exact hs
    rw [step_eq_engineStep hs, step_eq_engineStep hhost]
    exact htick
  | cons m rest =>
    have hhost : t.host = m :: rest := by subst ht; exact hs
    by_cases hm : m = .letEngine
    · subst hm ht
      rw [step_of_letEngine hs, step_of_letEngine hhost]
      exact .next (alike_engineTurn (s := { s with host := rest }) hslots)
    · have hmove : Option.Rel Alike (hostMove m { s with host := rest }) (hostMove m { t with host := rest }) := by
        subst ht; exact alike_hostMove (s := { s with host := rest }) hslots m
      obtain ⟨u, v, hu, hv, huv⟩ | ⟨hu, hv⟩ := optionRel_cases hmove
      · rw [step_of_hostMove hs hm hu, step_of_hostMove hhost hm hv]; exact .next huv
      · rw [step_of_hostHold hs hm hu, step_of_hostHold hhost hm hv]; exact htick

/-- Settles O50: `alike_step`, read for a step that answers a next state. -/
theorem unspecifiedBytesAreNeverRead : Obligations.UnspecifiedBytesAreNeverRead := by
  intro s t s' h hstep
  have hab := alike_step h
  rw [hstep] at hab
  generalize step t = o at hab ⊢
  cases hab with
  | next hab => exact ⟨_, rfl, hab⟩

end Sys2Proof.Machine
end

section
/-!
The commands that are accepted (41_context_and_feed R140, R143; 42_finalization R175 to R181): everything such a command leaves,
said once, and then for each of the four; and payloads that come in parts (70_reset_and_hazards R236).
-/

namespace Sys2Proof.Machine

/-! ## An accepted command -/

/-- The status word of a command that ends in ERR_OK, for the slot it leaves. -/
theorem status_ok (op : Byte) {cid : Nat} {s : State} {sl : Slot} (hs : s.slots[cid]? = some sl) :
    status op cid .ok s = statusWord op (BitVec.ofNat 8 cid) (occ sl) (phaseCode sl.ph) 0x00 :=
  status_of_slot op ⟨nofun, nofun⟩ hs

/-- A slot just written is what was written, if there is such a slot. -/
theorem setSlot_slot {cid : Nat} {s : State} {sl : Slot} (hs : s.slots[cid]? = some sl) (r : Slot) :
    (setSlot cid r s).slots[cid]? = some r :=
  List.getElem?_set_self (List.getElem?_eq_some_iff.1 hs).1

/-- A command that the phase table accepts, its payload in CQ, leaves its result in its slot, answers ERR_OK with OCC and PH of
that result and its digest words, has taken its payload, and leaves everything else alone. -/
theorem exec_accepted {i : Instr} {s : State} {sl : Slot} {p : Phase} (hs : s.slots[i.cid]? = some sl)
    (hq : i.payload ≤ s.cq.length) (hp : phaseTable i sl.ph = .ok p) :
    let r := resultSlot i (s.cq.take i.payload) sl
    ∃ t, exec i s = .next t ∧ t.slots[i.cid]? = some r ∧
      out t = out s ++ statusWord i.opcode (BitVec.ofNat 8 i.cid) (occ r) (phaseCode r.ph) 0x00 ::
        resultDigest i (s.cq.take i.payload) sl ∧
      t.ds = .waitCmd ∧ t.cq = s.cq.drop i.payload ∧ SameOutside i.cid s t := by
  intro r
  have heff : performed i (s.cq.take i.payload) { s with cq := s.cq.drop i.payload } =
      complete i.opcode i.cid .ok (resultDigest i (s.cq.take i.payload) sl)
        (setSlot i.cid r { s with cq := s.cq.drop i.payload }) := by
    simp only [performed, hs, hp, r]
  have hslot := setSlot_slot (s := { s with cq := s.cq.drop i.payload }) hs r
  refine ⟨_, exec_of_enough i s hq, ?_, ?_, performed_ds .., performed_cq ..,
    performed_sameOutside i _ { s with cq := s.cq.drop i.payload }⟩
  · rw [heff]; exact hslot
  · rw [heff, out_complete, status_ok _ hslot]; rfl

/-- A slot whose counter is a multiple of 64 has OCC 0. -/
theorem occ_eq_zero {sl : Slot} (h : sl.cnt.toNat % 64 = 0) : occ sl = 0 := by
  refine BitVec.eq_of_toNat_eq ?_
  rw [occ_toNat, h]; rfl

/-! ## INIT (R140) -/

/-- Settles O27: INIT is accepted in every phase. -/
theorem initCreatesAFreshContext : Obligations.InitCreatesAFreshContext := by
  intro cid s sl hs
  exact exec_accepted (i := .init cid) hs (Nat.zero_le _) rfl

/-! ## FEED (R143) -/

/-- FEED is accepted on a FRESH or ABSORBING slot. -/
theorem phaseTable_feed {sl : Slot} (hph : sl.ph = .fresh ∨ sl.ph = .absorbing) (cid n : Nat) :
    ∃ p, phaseTable (.feed cid n) sl.ph = .ok p := by
  obtain hph | hph := hph <;> rw [hph] <;> exact ⟨_, rfl⟩

/-- The slot after an accepted FEED: its span absorbed, and its phase. -/
theorem feedSlot_eq (cid n : Nat) (sl : Slot) (bs : List Byte) :
    feedSlot cid n sl bs = { absorbAll cid sl bs with ph := if n = 0 then sl.ph else .absorbing } := by
  cases n with
  | zero => rw [if_pos rfl, ← absorbAll_ph cid sl bs]; rfl
  | succ n => rfl

/-- The occupancy after an accepted FEED counts its span. -/
theorem occ_feedSlot (cid n : Nat) (sl : Slot) (bs : List Byte) :
    occ (feedSlot cid n sl bs) = BitVec.ofNat 6 (sl.cnt.toNat + bs.length) := by
  refine BitVec.eq_of_toNat_eq ?_
  rw [feedSlot_eq, occ_toNat, absorbAll_occupancy, BitVec.toNat_ofNat]

/-- Settles O28: the accepted FEED, its slot by `feedSlot_eq`. -/
theorem feedAbsorbsItsSpan : Obligations.FeedAbsorbsItsSpan := by
  intro cid n s sl hs hph hq
  obtain ⟨p, hp⟩ := phaseTable_feed hph cid n
  obtain ⟨t, hexec, hslot, hout, hrest⟩ := exec_accepted (i := .feed cid n) hs hq hp
  have hspan : (span n (s.cq.take (Instr.feed cid n).payload)).length = n :=
    span_length_of_words (List.length_take_of_le hq)
  rw [resultSlot, occ_feedSlot, feedSlot_ph, hspan, apply_ite phaseCode] at hout
  rw [resultSlot, feedSlot_eq] at hslot
  exact ⟨t, hexec, hslot, hout, hrest⟩

/-- Settles O37: the accepted FEED, and `Represents.feedSlot`. -/
theorem feedAppendsToTheMessage : Obligations.FeedAppendsToTheMessage := by
  intro cid n s sl msg hs hph hr hq
  obtain ⟨p, hp⟩ := phaseTable_feed hph cid n
  obtain ⟨t, hexec, hslot, -⟩ := exec_accepted (i := .feed cid n) hs hq hp
  exact ⟨t, _, hexec, hslot, hr.feedSlot cid n _⟩

/-! ## FINAL (R178) -/

/-- FINAL is accepted on a FRESH or ABSORBING slot. -/
theorem phaseTable_final {sl : Slot} (hph : sl.ph = .fresh ∨ sl.ph = .absorbing) (cid : Nat) :
    phaseTable (.final cid) sl.ph = .ok .finalized := by
  obtain hph | hph := hph <;> rw [hph] <;> rfl

/-- A slot that FINAL leaves has OCC 0. -/
theorem occ_resultSlot_final (cid : Nat) (ws : List Word) (sl : Slot) : occ (resultSlot (.final cid) ws sl) = 0 :=
  occ_eq_zero (finalizeSlot_occupancy cid sl)

/-- Settles O31: the accepted FINAL, with the count of `finalizeSlot_cnt`. -/
theorem finalFinalizesTheContext : Obligations.FinalFinalizesTheContext := by
  intro cid s sl hs hph
  obtain ⟨t, hexec, hslot, hout, hrest⟩ :=
    exec_accepted (i := .final cid) hs (Nat.zero_le _) (phaseTable_final hph cid)
  rw [occ_resultSlot_final] at hout
  exact ⟨t, _, hexec, hslot, rfl, rfl, finalizeSlot_cnt cid sl, finalizeSlot_occupancy cid sl, hout, hrest⟩

/-- Settles O38: the accepted FINAL, on a slot that holds a message. -/
theorem finalReturnsTheDigestOfTheMessage : Obligations.FinalReturnsTheDigestOfTheMessage := by
  intro cid s sl msg hs hph hr
  obtain ⟨t, hexec, -, hout, -⟩ := exec_accepted (i := .final cid) hs (Nat.zero_le _) (phaseTable_final hph cid)
  rw [occ_resultSlot_final, resultDigest, hr.finalizeSlot_h] at hout
  exact ⟨t, hexec, hout⟩

/-! ## DIGEST (R180) -/

/-- Settles O32: DIGEST is accepted in every phase, and its working context ends with the reference digest. -/
theorem digestAnswersAndZeroizes : Obligations.DigestAnswersAndZeroizes := by
  intro cid n s sl hs hq
  obtain ⟨t, hexec, hslot, hout, hrest⟩ := exec_accepted (i := .digest cid n) hs hq rfl
  rw [resultDigest, digestSlot_h] at hout
  exact ⟨t, _, hexec, hslot, rfl, rfl, rfl, rfl, hout, hrest⟩

/-! ## Payloads that come in parts (R236) -/

/-- A FEED or DIGEST just taken is in the middle of a payload with no word taken. -/
theorem exec_payloadInstr (op : PayloadOp) (cid n : Nat) (s : State) :
    exec (payloadInstr op cid n) s = .next (resume op cid n [] s) := by
  cases op <;> rfl

/-- A performed command returns to WAIT_CMD whatever DS was. -/
theorem performed_withDs (i : Instr) (ws : List Word) (s : State) (d : Decoder) :
    performed i ws { s with ds := d } = performed i ws s := by
  cases hs : s.slots[i.cid]? with
  | none => simp only [performed, hs]; rfl
  | some sl => cases hp : phaseTable i sl.ph <;> simp only [performed, hs, hp] <;> rfl

/-- The last part of a payload makes the engine do what the command does with the whole payload. -/
theorem resume_append (op : PayloadOp) (cid n : Nat) {p q : List Word} (s : State) (hp : p.length ≤ payloadWords n)
    (hpq : payloadWords n ≤ (p ++ q).length) :
    resume op cid n p { s with cq := q, ds := .payload op cid n p } = resume op cid n [] { s with cq := p ++ q } := by
  rw [List.length_append] at hpq
  have hwhole : payloadWords n - ([] : List Word).length ≤ (p ++ q).length := by rw [List.length_append]; exact hpq
  have hlast : payloadWords n - p.length ≤ q.length := by omega
  rw [resume_of_enough op cid n [] { s with cq := p ++ q } hwhole,
    resume_of_enough op cid n p { s with cq := q, ds := .payload op cid n p } hlast]
  simp only [List.length_nil, Nat.sub_zero, List.nil_append, List.take_append, List.drop_append,
    List.take_of_length_le hp, List.drop_eq_nil_of_le hp]
  exact performed_withDs _ _ { s with cq := q.drop _ } _

/-- The three clauses of R236 for one of the two commands: a command without all its words, a part that is not the last, and the
last part. -/
theorem split_payload {s : State} (h : Ready s) (op : PayloadOp) (cid n : Nat) (p q : List Word) :
    (p.length < payloadWords n →
      exec (payloadInstr op cid n) { s with cq := p } = .next { s with cq := [], ds := .payload op cid n p }) ∧
    (q ≠ [] → (p ++ q).length < payloadWords n →
      step { s with cq := q, ds := .payload op cid n p } =
        .next { s with cq := [], ds := .payload op cid n (p ++ q) }) ∧
    (p.length < payloadWords n → payloadWords n ≤ (p ++ q).length →
      step { s with cq := q, ds := .payload op cid n p } = exec (payloadInstr op cid n) { s with cq := p ++ q }) := by
  obtain ⟨-, hpend, hrst, hhost, room⟩ := h
  have goesOn (hne : q ≠ []) := step_of_payload (s := { s with cq := q, ds := .payload op cid n p }) hhost hrst hpend room
    rfl hne
  refine ⟨fun hp => ?_, fun hne hpq => ?_, fun hp hpq => ?_⟩
  · rw [exec_payloadInstr, resume_of_short op cid n [] { s with cq := p } hp]; rfl
  · rw [List.length_append] at hpq
    rw [goesOn hne, resume_of_short op cid n p { s with cq := q, ds := .payload op cid n p } (by simp only; omega)]
  · have hne : q ≠ [] := by rintro rfl; rw [List.append_nil] at hpq; omega
    rw [goesOn hne, resume_append op cid n s hp.le hpq, exec_payloadInstr]

/-- Settles O30: `split_payload` for FEED and for DIGEST. -/
theorem splitPayloadIsTheSame : Obligations.SplitPayloadIsTheSame := by
  intro s cid n p q h
  obtain ⟨waits, goesOn, ends⟩ := split_payload h .feed cid n p q
  obtain ⟨waits', goesOn', ends'⟩ := split_payload h .digest cid n p q
  exact ⟨fun hp => ⟨waits hp, waits' hp⟩, fun hne hpq => ⟨goesOn hne hpq, goesOn' hne hpq⟩,
    fun hp hpq => ⟨ends hp hpq, ends' hp hpq⟩⟩

end Sys2Proof.Machine
end

section
/-!
The response queue and the waits of the engine (10_state R32; 20_memory R61; 70_reset_and_hazards R232, R237, R239, R242): words
held back, the steps that complete, the steps that stop, and the host's moves on the queues.
-/

namespace Sys2Proof.Machine

/-! ## Responding (R32, R237) -/

/-- Settles O16: RQ is the response sequence as far as there is room, so words are held back only once it is full. -/
theorem responsesWaitForRoomInOrder : Obligations.ResponsesWaitForRoomInOrder := by
  intro ws s h
  have hrq := respond_rq ws s h
  have hlen := congrArg List.length (out_respond ws s)
  refine ⟨out_respond ws s, hrq, respond_rq_length ws s h, fun hpend => ?_, rfl, rfl, rfl⟩
  have hheld := List.length_pos_iff.2 hpend
  rw [out, List.length_append, hrq, List.length_take] at hlen
  rw [hrq, List.length_take]; omega

/-- Draining is responding with no further word. -/
theorem drain_eq_respond (s : State) : drain s = respond [] s := by
  rw [respond, List.append_nil]

/-- Settles O55: out of reset and with room in RQ, words held back come first in what the engine does. -/
theorem heldResponsesDrainFirst : Obligations.HeldResponsesDrainFirst := by
  intro s hhost hrst hpend room
  obtain ⟨w, ws, hheld⟩ := List.exists_cons_of_ne_nil hpend
  refine ⟨drain s, ?_, out_drain s, ?_, rfl, rfl, rfl⟩
  · rw [step_eq_engineStep hhost, engineStep_of_room s hrst room]; simp only [hheld]
  · rw [drain_eq_respond, respond_rq [] s room.le, List.append_nil]

/-! ## A step that runs a command (R239) -/

/-- Settles O41, by `step_of_ready`. -/
theorem stepRunsTheDecodedCommand : Obligations.StepRunsTheDecodedCommand := by
  intro s w rest i h hq hw
  rw [step_of_ready h hq, runWord, hw]

/-- With room for its whole response the end of a command holds nothing back. -/
theorem complete_room (op : Byte) (cid : Nat) (e : Err) (digest : List Word) {s : State} (hpend : s.pend = [])
    (room : s.rq.length + (digest.length + 1) ≤ s.rspDepth) :
    (complete op cid e digest s).rq = s.rq ++ status op cid e s :: digest ∧ (complete op cid e digest s).pend = [] :=
  respond_room _ { s with ds := .waitCmd } hpend room

/-- With room for five words a performed command has its response, of one word or five, in RQ. -/
theorem performed_room (i : Instr) (ws : List Word) {s : State} (hpend : s.pend = [])
    (room : s.rq.length + 5 ≤ s.rspDepth) :
    ∃ resp, (performed i ws s).rq = s.rq ++ resp ∧ (performed i ws s).pend = [] ∧
      (resp.length = 1 ∨ resp.length = 5) := by
  obtain ⟨-, h⟩ | ⟨_, e, -, -, h⟩ | ⟨sl, _, -, -, h⟩ := performed_cases i ws s
  · obtain ⟨hrq, hp⟩ := complete_room i.opcode i.cid .badCid [] hpend (by rw [List.length_nil]; omega)
    rw [h]; exact ⟨_, hrq, hp, .inl rfl⟩
  · obtain ⟨hrq, hp⟩ := complete_room i.opcode i.cid e [] hpend (by rw [List.length_nil]; omega)
    rw [h]; exact ⟨_, hrq, hp, .inl rfl⟩
  · have hlen := resultDigest_length i ws sl
    have hfits := resultDigest_length_le i ws sl
    obtain ⟨hrq, hp⟩ := complete_room i.opcode i.cid .ok (resultDigest i ws sl)
      (s := setSlot i.cid (resultSlot i ws sl) s) hpend (by simp only [setSlot_rq, setSlot_rspDepth]; omega)
    rw [h]
    refine ⟨_, hrq, hp, ?_⟩
    rw [List.length_cons, hlen]
    cases returnsDigest i with
    | true => exact .inr rfl
    | false => exact .inl rfl

/-- Settles O42: the step runs the word, and its response fits. -/
theorem framedCommandsComplete : Obligations.FramedCommandsComplete := by
  intro s w p rest h hq hp room
  have ⟨_, hpend, _, _, _⟩ := h
  rw [step_of_ready h hq, runWord]
  cases hw : decode w with
  | illegal why =>
    obtain rfl : p = [] := List.eq_nil_of_length_eq_zero (by rw [hp, hw]; rfl)
    obtain ⟨hrq, hnone⟩ := complete_room (opField w) (cidField w).toNat .illegal [] (s := { s with cq := rest }) hpend
      (Nat.le_trans (by simp) room)
    exact ⟨_, _, rfl, rfl, rfl, hrq, hnone, .inl rfl⟩
  | instr i =>
    obtain ⟨resp, hrq, hnone, hlen⟩ := performed_room i p (s := { s with cq := rest }) hpend room
    exact ⟨_, resp, exec_framed i s p rest (by rw [hp, hw]; rfl), performed_ds .., performed_cq .., hrq, hnone, hlen⟩

/-! ## The order of the responses (R61) -/

/-- Words only enter the response stream at its end. -/
theorem engineStep_stream {s t : State} (h : engineStep s = .next t) : stream s <+: stream t := by
  obtain ⟨-, -, hleft⟩ := engineStep_left h
  cases hleft with
  | drained _ e => subst e; rw [stream, stream, out_drain]; exact List.prefix_rfl
  | waits _ _ _ _ _ _ e => subst e; exact List.prefix_rfl
  | raised op cid err rest _ _ e => subst e; rw [stream_raiseErr]; exact List.prefix_append ..
  | did i ws rest sl p _ _ _ _ _ e => subst e; rw [stream_complete]; exact List.prefix_append ..

/-- No move of the host but asserting reset takes a word out of the response stream. -/
theorem hostMove_stream {m : HostMove} {s t : State} (hm : m ≠ .assertReset) (h : hostMove m s = some t) :
    stream t = stream s := by
  cases m with
  | write w => obtain ⟨-, rfl⟩ | ⟨-, -, rfl⟩ := hostWrite_cases h <;> rfl
  | read =>
    obtain ⟨w, rest, hword, rfl⟩ := hostRead_cases h
    simp only [stream, out, hword, List.append_assoc, List.cons_append, List.nil_append]
  | assertReset => exact absurd rfl hm
  | releaseReset | letEngine => obtain rfl := Option.some.inj h; rfl

/-- Settles O47: a host move leaves the stream as it is, the engine adds at its end. -/
theorem responsesKeepTheirOrder : Obligations.ResponsesKeepTheirOrder := by
  intro s t h hnot
  obtain ⟨m, rest, hhost, hm⟩ | ⟨hosts, -, hengine | rfl⟩ := step_inversion h
  · have hne : m ≠ .assertReset := by rintro rfl; rw [hhost] at hnot; exact hnot rfl
    exact (hostMove_stream hne hm).symm ▸ List.prefix_rfl
  · have hstream := engineStep_stream hengine; exact hstream
  · exact List.prefix_rfl

/-! ## Where the engine stops (R32, R236, R237) -/

/-- In reset the engine has no step (R230). -/
theorem engineStep_of_reset {s : State} (h : s.rst = true) : engineStep s = .fault .waitReset := by
  simp only [engineStep, h, if_true]

/-- A word taken as a command word always has a next state. -/
theorem runWord_next (w : Word) (s : State) : ∃ t, runWord w s = .next t := by
  unfold runWord
  cases decode w with
  | instr i => exact exec_next i s
  | illegal why => exact ⟨_, rfl⟩

/-- Everything the engine can do when it is its turn: one of the four waits, or a step. -/
theorem engineStep_outcomes (s : State) :
    (engineStep s = .fault .waitReset ∧ s.rst = true) ∨
    (engineStep s = .fault .waitResponse ∧ s.rst = false ∧ s.rspDepth ≤ s.rq.length) ∨
    (s.rst = false ∧ s.rq.length < s.rspDepth ∧
      ((engineStep s = .fault .waitCommand ∧ s.pend = [] ∧ s.ds = .waitCmd ∧ s.cq = []) ∨
        (engineStep s = .fault .waitPayload ∧ s.pend = [] ∧ s.ds ≠ .waitCmd ∧ s.cq = []) ∨
        ((s.pend ≠ [] ∨ s.cq ≠ []) ∧ ∃ t, engineStep s = .next t))) := by
  cases hrst : s.rst with
  | true => exact .inl ⟨engineStep_of_reset hrst, rfl⟩
  | false =>
    obtain room | full := Nat.lt_or_ge s.rq.length s.rspDepth
    · refine .inr (.inr ⟨rfl, room, ?_⟩)
      rw [engineStep_of_room s hrst room]
      cases s.pend with
      | cons w ws => exact .inr (.inr ⟨.inl nofun, _, rfl⟩)
      | nil =>
        cases s.ds <;> cases s.cq
        case waitCmd.nil => exact .inl ⟨rfl, rfl, rfl, rfl⟩
        case waitCmd.cons w rest => exact .inr (.inr ⟨.inr nofun, runWord_next w _⟩)
        case payload.nil => exact .inr (.inl ⟨rfl, rfl, nofun, rfl⟩)
        case payload.cons => exact .inr (.inr ⟨.inr nofun, _, rfl⟩)
    · exact .inr (.inl ⟨engineStep_of_full s hrst full, rfl, full⟩)

/-- Settles O43: the five outcomes exclude one another, and so do their conditions. -/
theorem engineHoldsOnlyInItsWaits : Obligations.EngineHoldsOnlyInItsWaits := by
  intro s hhost
  rw [step_eq_engineStep hhost]
  obtain ⟨h, hr⟩ | ⟨h, hr, hfull⟩ | ⟨hr, room, ⟨h, hp, hd, hq⟩ | ⟨h, hp, hd, hq⟩ | ⟨hwords, t, h⟩⟩ :=
    engineStep_outcomes s
  · simp [h, hr]
  · simp [h, hr, hfull, Nat.not_lt.2 hfull]
  · simp [h, hr, room, hp, hd, hq, Nat.not_le.2 room]
  · simp [h, hr, room, hp, hd, hq, Nat.not_le.2 room]
  · have hnone : s.pend = [] → s.cq ≠ [] := fun hp => hwords.resolve_left (not_not.2 hp)
    simp +contextual [h, hr, room, hnone, Nat.not_le.2 room]

/-- The engine never refuses. -/
theorem engineStep_ne_refused (s : State) (r : Refusal) : engineStep s ≠ .refused r := by
  obtain ⟨h, -⟩ | ⟨h, -⟩ | ⟨-, -, ⟨h, -⟩ | ⟨h, -⟩ | ⟨-, t, h⟩⟩ := engineStep_outcomes s
  all_goals rw [h]; nofun

/-! ## The host's next move (R242) -/

/-- A write with room in CQ. -/
theorem hostMove_write_of_room (w : Word) {s : State} (hrst : s.rst = false) (room : s.cq.length < s.cqDepth) :
    hostMove (.write w) s = some { s with cq := s.cq ++ [w] } := by
  simp only [hostMove, hostWrite, hrst, room, Bool.false_eq_true, if_false, if_true]

/-- A write in reset is discarded. -/
theorem hostMove_write_of_reset (w : Word) {s : State} (hrst : s.rst = true) : hostMove (.write w) s = some s := by
  simp only [hostMove, hostWrite, hrst, if_true]

/-- A write holds exactly while CQ is full, out of reset (R237). -/
theorem hostMove_write_eq_none_iff (w : Word) (s : State) :
    hostMove (.write w) s = none ↔ s.rst = false ∧ s.cqDepth ≤ s.cq.length := by
  cases hrst : s.rst with
  | true => simp [hostMove_write_of_reset w hrst]
  | false =>
    obtain room | full := Nat.lt_or_ge s.cq.length s.cqDepth
    · simp [hostMove_write_of_room w hrst room, room]
    · simp [hostMove, hostWrite, hrst, full]

/-- A read takes the oldest word of RQ. -/
theorem hostMove_read_of_cons {s : State} {w : Word} {rest : List Word} (h : s.rq = w :: rest) :
    hostMove .read s = some { s with rq := rest, got := s.got ++ [w] } := by
  simp only [hostMove, hostRead, h]

/-- A read holds exactly while RQ is empty. -/
theorem hostMove_read_eq_none_iff (s : State) : hostMove .read s = none ↔ s.rq = [] := by
  cases h : s.rq with
  | nil => simp [hostMove, hostRead, h]
  | cons w rest => simp [hostMove_read_of_cons h]

/-- `HostHolds` is what keeps the host from its next move. -/
theorem hostHolds_iff {s : State} {m : HostMove} {rest : List HostMove} (hhost : s.host = m :: rest) :
    HostHolds s ↔ m ≠ .letEngine ∧ hostMove m { s with host := rest } = none := by
  cases m with
  | write w => simp only [HostHolds, hhost, hostMove_write_eq_none_iff, ne_eq, reduceCtorEq, not_false_eq_true, true_and]
  | read => simp only [HostHolds, hhost, hostMove_read_eq_none_iff, ne_eq, reduceCtorEq, not_false_eq_true, true_and]
  | assertReset | releaseReset | letEngine => simp [HostHolds, hhost, hostMove]

/-- While the host holds, a step is the engine's. -/
theorem step_of_hostHolds {s : State} (h : HostHolds s) : step s = engineStep s := by
  cases hhost : s.host with
  | nil => exact step_eq_engineStep hhost
  | cons m rest =>
    obtain ⟨hm, hnone⟩ := (hostHolds_iff hhost).1 h
    exact step_of_hostHold hhost hm hnone

/-- A host that does not hold makes its move, or gives the engine a turn, in a step that always answers a next state. -/
theorem step_of_not_hostHolds {s : State} (h : ¬ HostHolds s) : ∃ t, step s = .next t := by
  cases hhost : s.host with
  | nil => exact absurd (by simp only [HostHolds, hhost]) h
  | cons m rest =>
    rw [hostHolds_iff hhost, not_and] at h
    by_cases hm : m = .letEngine
    · subst hm; exact ⟨_, step_of_letEngine hhost⟩
    · obtain ⟨t, ht⟩ := Option.ne_none_iff_exists'.1 (h hm)
      exact ⟨t, step_of_hostMove hhost hm ht⟩

/-- Settles O45: a step that is not the engine's answers a next state, and the engine never refuses. -/
theorem nothingIsRefused : Obligations.NothingIsRefused := by
  intro s r
  by_cases h : HostHolds s
  · rw [step_of_hostHolds h]; exact engineStep_ne_refused s r
  · obtain ⟨t, ht⟩ := step_of_not_hostHolds h
    rw [ht]; nofun

/-- Settles O54: each move when it can be made, and the engine's step while it cannot. -/
theorem hostMovesOnTheQueues : Obligations.HostMovesOnTheQueues := by
  intro s rest hrst
  refine ⟨fun w hhost => ⟨fun room => ?_, fun full => ?_⟩, fun hhost => ⟨fun w q hrq => ?_, fun hrq => ?_⟩⟩
  · exact step_of_hostMove hhost nofun (hostMove_write_of_room w hrst room)
  · exact step_of_hostHold hhost nofun ((hostMove_write_eq_none_iff w _).2 ⟨hrst, full⟩)
  · exact step_of_hostMove hhost nofun (hostMove_read_of_cons hrq)
  · exact step_of_hostHold hhost nofun ((hostMove_read_eq_none_iff _).2 hrq)

/-- Settles O53: the moves on the reset input, and that `Inv` leaves CQ empty in reset, so that the word written after it is the
one the engine runs. -/
theorem resetRelease : Obligations.ResetRelease := by
  refine ⟨fun s w rest hrst hhost => ?_, fun s w rest hhost => ?_, fun s rest hhost => ?_, fun s w hinv hrst hhost => ?_⟩
  · exact step_of_hostMove hhost nofun (hostMove_write_of_reset w hrst)
  · exact ⟨_, _, step_of_assertReset hhost, rfl, step_of_hostMove rfl nofun (hostMove_write_of_reset w rfl), rfl, rfl, rfl⟩
  · exact step_of_hostMove hhost nofun rfl
  · obtain ⟨⟨-, -, hrsp, hcqd⟩, -, -, hreset, -⟩ := hinv
    obtain ⟨⟨hds, hcq, hrq, hpend⟩, -⟩ := hreset hrst
    have room : s.cq.length < s.cqDepth := by rw [hcq]; exact hcqd
    have empty : s.rq.length < s.rspDepth := by rw [hrq]; exact Nat.lt_of_lt_of_le (by decide) hrsp
    refine ⟨_, _, step_of_hostMove hhost nofun rfl, step_of_hostMove rfl nofun (hostMove_write_of_room w rfl room), ?_, hds⟩
    exact step_of_ready ⟨hds, hpend, rfl, rfl, empty⟩ (by rw [hcq]; rfl)

/-! ## How a run ends (R241) -/

/-- A step that stops has a host that holds, and an engine that waits. -/
theorem step_fault {s : State} {f : Fault} (h : step s = .fault f) : HostHolds s ∧ engineStep s = .fault f := by
  by_cases hh : HostHolds s
  · exact ⟨hh, (step_of_hostHolds hh).symm.trans h⟩
  · obtain ⟨t, ht⟩ := step_of_not_hostHolds hh
    rw [ht] at h; cases h

/-- A run that stops in PAYLOAD with CQ empty, or with a full RQ, is stuck: nothing comes after it. -/
theorem stuck_of_fault {s : State} {f : Fault} (h : step s = .fault f)
    (hwait : (s.ds ≠ .waitCmd ∧ s.cq = []) ∨ s.rspDepth ≤ s.rq.length) : Stuck s := by
  obtain ⟨hds, hcq⟩ | full := hwait
  · exact .inl ⟨hds, fun t ht => by rw [reaches_of_fault h ht]; exact ⟨rfl, hcq⟩⟩
  · exact .inr ⟨full, fun t ht => by rw [reaches_of_fault h ht]; exact ⟨rfl, rfl⟩⟩

/-- With no word in CQ the engine can but drain what it holds back, in the middle of a payload. -/
theorem engineStep_of_noWord {s t : State} (hds : s.ds ≠ .waitCmd) (hcq : s.cq = []) (h : engineStep s = .next t) :
    t = drain s := by
  obtain ⟨-, -, hdid⟩ := engineStep_cases h
  cases hdid with
  | drained _ e => exact e
  | ran w rest _ _ hwait => exact absurd hwait hds
  | reported w rest _ _ hwait => exact absurd hwait hds
  | resumed _ _ _ _ _ _ hne => exact absurd hcq hne

/-- In the middle of a payload, with CQ empty, and the host writing no more word and not resetting. -/
def NoWordToCome (s : State) : Prop := s.ds ≠ .waitCmd ∧ s.cq = [] ∧ ∀ m ∈ s.host, m = .read ∨ m = .letEngine

/-- RQ full, and the host reading no more and not resetting. -/
def NoReadToCome (s : State) : Prop :=
  s.rspDepth ≤ s.rq.length ∧ ∀ m ∈ s.host, (∃ w, m = .write w) ∨ m = .letEngine

/-- A state of the first kind stays where it is in its payload. -/
theorem NoWordToCome.step {s t : State} (hs : NoWordToCome s) (h : step s = .next t) :
    t.ds = s.ds ∧ NoWordToCome t := by
  obtain ⟨hds, hcq, hmoves⟩ := hs
  obtain ⟨m, rest, hhost, hm⟩ | ⟨hosts, hsuffix, hengine | rfl⟩ := step_inversion h
  · rw [hhost, List.forall_mem_cons] at hmoves
    obtain ⟨rfl | rfl, hrest⟩ := hmoves
    · obtain ⟨w, q, -, rfl⟩ := hostRead_cases hm; exact ⟨rfl, hds, hcq, hrest⟩
    · obtain rfl := Option.some.inj hm; exact ⟨rfl, hds, hcq, hrest⟩
  · obtain rfl := engineStep_of_noWord (s := { s with host := hosts }) hds hcq hengine
    exact ⟨rfl, hds, hcq, fun m hm => hmoves m (hsuffix.subset hm)⟩
  · exact ⟨rfl, hds, hcq, fun m hm => hmoves m (hsuffix.subset hm)⟩

/-- A state of the second kind keeps its RQ, and the host reads nothing. -/
theorem NoReadToCome.step {s t : State} (hs : NoReadToCome s) (h : step s = .next t) :
    t.rq = s.rq ∧ t.got = s.got ∧ NoReadToCome t := by
  obtain ⟨full, hmoves⟩ := hs
  obtain ⟨m, rest, hhost, hm⟩ | ⟨hosts, hsuffix, hengine | rfl⟩ := step_inversion h
  · rw [hhost, List.forall_mem_cons] at hmoves
    obtain ⟨⟨w, rfl⟩ | rfl, hrest⟩ := hmoves
    · obtain ⟨-, rfl⟩ | ⟨-, -, rfl⟩ := hostWrite_cases hm <;> exact ⟨rfl, rfl, full, hrest⟩
    · obtain rfl := Option.some.inj hm; exact ⟨rfl, rfl, full, hrest⟩
  · obtain ⟨-, room, -⟩ := engineStep_cases hengine
    exact absurd room (Nat.not_lt.2 full)
  · exact ⟨rfl, rfl, full, fun m hm => hmoves m (hsuffix.subset hm)⟩

theorem NoWordToCome.stuck {s : State} (hs : NoWordToCome s) : Stuck s := by
  refine .inl ⟨hs.1, fun t ht => ?_⟩
  obtain ⟨hds, -, hcq, -⟩ := reaches_induction (P := fun u => u.ds = s.ds ∧ NoWordToCome u)
    (fun a b ⟨hds, ha⟩ hab => have ⟨hb, hkeep⟩ := ha.step hab; ⟨hb.trans hds, hkeep⟩) ⟨rfl, hs⟩ ht
  exact ⟨hds, hcq⟩

theorem NoReadToCome.stuck {s : State} (hs : NoReadToCome s) : Stuck s := by
  refine .inr ⟨hs.1, fun t ht => ?_⟩
  obtain ⟨hrq, hgot, -⟩ := reaches_induction (P := fun u => u.rq = s.rq ∧ u.got = s.got ∧ NoReadToCome u)
    (fun a b ⟨hrq, hgot, ha⟩ hab => have ⟨hq, hg, hkeep⟩ := ha.step hab; ⟨hq.trans hrq, hg.trans hgot, hkeep⟩)
    ⟨rfl, rfl, hs⟩ ht
  exact ⟨hrq, hgot⟩

/-- Nothing after a stuck state is quiescent: DS or RQ stays as it is. -/
theorem not_quiescent_of_stuck {s t : State} (hdepth : 0 < s.rspDepth) (hs : Stuck s) (ht : Reaches s t) :
    ¬ Quiescent t := by
  rintro ⟨hds, -, hrq, -⟩
  obtain ⟨hne, hkeep⟩ | ⟨full, hkeep⟩ := hs
  · obtain ⟨hsame, -⟩ := hkeep t ht
    exact hne (hsame.symm.trans hds)
  · obtain ⟨hsame, -⟩ := hkeep t ht
    rw [← hsame, hrq, List.length_nil] at full; omega

/-- Settles O44: a stop by the waits of `engineStep_outcomes`, the stuck states by their kinds above. -/
theorem runsEndQuiescentOrStuck : Obligations.RunsEndQuiescentOrStuck := by
  refine ⟨fun s f h => ?_, fun s hh hrst hwait => ?_, fun s hm hds hcq => NoWordToCome.stuck ⟨hds, hcq, hm⟩,
    fun s hm full => NoReadToCome.stuck ⟨full, hm⟩, fun s t hdepth hs ht => not_quiescent_of_stuck hdepth hs ht,
    fun s hdepth hq hrst hhost => ?_⟩
  · obtain ⟨hh, hf⟩ := step_fault h
    refine ⟨hh, fun hrst => ?_⟩
    obtain ⟨-, hr⟩ | ⟨-, -, full⟩ | ⟨-, room, ⟨-, hpend, hds, hcq⟩ | ⟨-, -, hds, hcq⟩ | ⟨-, t, hnext⟩⟩ :=
      engineStep_outcomes s
    · rw [hrst] at hr; cases hr
    · exact .inr (stuck_of_fault h (.inr full))
    · exact .inl ⟨hds, hpend, hcq, room⟩
    · exact .inr (stuck_of_fault h (.inl ⟨hds, hcq⟩))
    · rw [hf] at hnext; cases hnext
  · obtain ⟨f, hf⟩ : ∃ f, step s = .fault f := by
      rw [step_of_hostHolds hh]
      obtain ⟨h, -⟩ | ⟨h, -⟩ | ⟨-, room, ⟨h, -⟩ | ⟨h, -⟩ | ⟨hwords, -⟩⟩ := engineStep_outcomes s
      · exact ⟨_, h⟩
      · exact ⟨_, h⟩
      · exact ⟨_, h⟩
      · exact ⟨_, h⟩
      · obtain ⟨-, hpend, hcq⟩ | full := hwait
        · exact absurd hwords (by rw [hpend, hcq]; simp)
        · exact absurd room (Nat.not_lt.2 full)
    exact ⟨stuck_of_fault hf (hwait.imp_left fun ⟨hds, _, hcq⟩ => ⟨hds, hcq⟩), f, hf⟩
  · obtain ⟨hds, hcq, hrq, hpend⟩ := hq
    have ⟨_, _, hcommand, _⟩ := engineHoldsOnlyInItsWaits s hhost
    exact hcommand.2 ⟨hrst, by rw [hrq]; exact hdepth, hpend, hds, hcq⟩

end Sys2Proof.Machine
end

section
/-!
Sequences of commands (10_state R28; 20_memory R62; 41_context_and_feed R146; 42_finalization R182): a command depends on the slot
it names alone, any chunks fed leave what their concatenation leaves, and streaming gives the digest of DIGEST.
-/

namespace Sys2Proof.Machine

/-! ## A command and the slot it names (R28) -/

/-- Two states with the same slot for a command: it leaves the same slot and answers the same words in both. -/
theorem performed_congr_slot {i : Instr} {s s' : State} (h : s.slots[i.cid]? = s'.slots[i.cid]?) (ws : List Word) :
    (performed i ws s).slots[i.cid]? = (performed i ws s').slots[i.cid]? ∧
      ∃ resp, out (performed i ws s) = out s ++ resp ∧ out (performed i ws s') = out s' ++ resp := by
  cases hs : s.slots[i.cid]? with
  | none =>
    have hs' := h.symm.trans hs
    have hstatus := status_congr i.opcode i.cid .badCid h
    simp only [performed, hs, hs', complete_slots, out_complete, hstatus]
    exact ⟨trivial, _, rfl, rfl⟩
  | some sl =>
    have hs' := h.symm.trans hs
    cases hp : phaseTable i sl.ph with
    | error e =>
      have hstatus := status_congr i.opcode i.cid e h
      simp only [performed, hs, hs', hp, complete_slots, out_complete, hstatus]
      exact ⟨trivial, _, rfl, rfl⟩
    | ok p =>
      have hset := setSlot_slot hs (resultSlot i ws sl)
      have hset' := setSlot_slot hs' (resultSlot i ws sl)
      simp only [performed, hs, hs', hp, complete_slots, out_complete, hset, hset', status_ok _ hset, status_ok _ hset']
      exact ⟨trivial, _, rfl, rfl⟩

/-- Settles O49: with its payload the command is performed in both states, else it waits in both. -/
theorem commandsTouchOnlyTheirSlot : Obligations.CommandsTouchOnlyTheirSlot := by
  intro i s s' hslot hcq
  obtain hshort | henough := Nat.lt_or_ge s.cq.length i.payload
  · obtain ⟨op, -, hexec⟩ := exec_of_short i s hshort
    obtain ⟨op', -, hexec'⟩ := exec_of_short i s' (hcq ▸ hshort)
    refine ⟨_, _, hexec, hexec', hslot, ?_, rfl, ⟨fun _ _ => rfl, rfl, rfl, rfl, rfl, rfl, rfl⟩,
      fun _ _ => rfl, rfl, rfl, rfl, rfl, rfl, rfl⟩
    exact List.drop_length.trans List.drop_length.symm
  · obtain ⟨hslots, resp, hout, hout'⟩ := performed_congr_slot (i := i) (s := { s with cq := s.cq.drop i.payload })
      (s' := { s' with cq := s'.cq.drop i.payload }) hslot (s.cq.take i.payload)
    have hexec' := exec_of_enough i s' (hcq ▸ henough)
    rw [← hcq] at hexec' hslots hout'
    refine ⟨_, _, exec_of_enough i s henough, hexec', hslots, ?_, by rw [performed_cq, performed_cq],
      performed_sameOutside i _ { s with cq := s.cq.drop i.payload },
      performed_sameOutside i _ { s' with cq := s.cq.drop i.payload }⟩
    rw [hout, hout']
    exact (List.drop_left ..).trans (List.drop_left ..).symm

/-! ## Commands one after another (R61, R62) -/

/-- A framed command is performed on its payload. -/
theorem issue_framed {i : Instr} {ws : List Word} (h : Framed (i, ws)) (s : State) :
    issue i ws s = performed i ws { s with cq := [] } := by
  have hexec := exec_framed i s ws [] h
  rw [List.append_nil] at hexec
  rw [issue, hexec]

/-- A framed command leaves the slots it does not name. -/
theorem issue_other {i : Instr} {ws : List Word} (h : Framed (i, ws)) (s : State) {c : Nat} (hc : i.cid ≠ c) :
    (issue i ws s).slots[c]? = s.slots[c]? := by
  rw [issue_framed h]
  exact performed_other i ws { s with cq := [] } c hc.symm

/-- A framed command leaves the same slot and answers the same words in two states that have the same slot for it. -/
theorem issue_congr_slot {i : Instr} {ws : List Word} (h : Framed (i, ws)) {s s' : State}
    (hslot : s.slots[i.cid]? = s'.slots[i.cid]?) :
    (issue i ws s).slots[i.cid]? = (issue i ws s').slots[i.cid]? ∧ answer i ws s = answer i ws s' := by
  obtain ⟨hslots, resp, hout, hout'⟩ := performed_congr_slot (s := { s with cq := [] }) (s' := { s' with cq := [] }) hslot ws
  rw [answer, answer, issue_framed h, issue_framed h, hout, hout']
  exact ⟨hslots, (List.drop_left ..).trans (List.drop_left ..).symm⟩

/-- A sequence of commands, and those of it that name slot `c`, from two states with the same slot `c`. -/
theorem slot_of_filter (c : Nat) {cmds : List (Instr × List Word)} (hframed : ∀ p ∈ cmds, Framed p) {s s' : State}
    (hslot : s.slots[c]? = s'.slots[c]?) :
    (issueAll cmds s).slots[c]? = (issueAll (cmds.filter fun p => p.1.cid = c) s').slots[c]? ∧
      answersOn c cmds s = answersOn c (cmds.filter fun p => p.1.cid = c) s' := by
  induction cmds generalizing s s' with
  | nil => exact ⟨hslot, rfl⟩
  | cons p cmds ih =>
    obtain ⟨hp, hrest⟩ := List.forall_mem_cons.1 hframed
    by_cases hc : p.1.cid = c
    · subst hc
      obtain ⟨hslots, hanswer⟩ := issue_congr_slot hp hslot
      obtain ⟨hend, hanswers⟩ := ih hrest hslots
      rw [List.filter_cons_of_pos (by simp)]
      simp only [issueAll, answersOn, hend, hanswers, hanswer, and_self]
    · obtain ⟨hend, hanswers⟩ := ih hrest ((issue_other hp s hc).trans hslot)
      rw [List.filter_cons_of_neg (by simpa using hc)]
      simp only [issueAll, answersOn, hend, hanswers, if_neg hc, List.nil_append, and_self]

/-- Settles O48, by `slot_of_filter` from one state. -/
theorem slotsAreIndependent : Obligations.SlotsAreIndependent :=
  fun c _ _ hframed => slot_of_filter c hframed rfl

/-! ## Chunks (R146) -/

/-- What an accepted command leaves in its slot, and its answer, when it is issued with its payload. -/
theorem issue_accepted {i : Instr} {ws : List Word} (h : Framed (i, ws)) {s : State} {sl : Slot} {p : Phase}
    (hs : s.slots[i.cid]? = some sl) (hp : phaseTable i sl.ph = .ok p) :
    (issue i ws s).slots[i.cid]? = some (resultSlot i ws sl) ∧
      ∃ st, answer i ws s = st :: resultDigest i ws sl := by
  have hws : ws.take i.payload = ws := List.take_of_length_le (Nat.le_of_eq h)
  obtain ⟨t, hexec, hslot, hout, -⟩ := exec_accepted (s := { s with cq := ws }) hs (Nat.le_of_eq h.symm) hp
  rw [hws] at hslot hout
  have hissue : issue i ws s = t := by rw [issue, hexec]
  rw [answer, hissue, hout]
  exact ⟨hslot, _, List.drop_left ..⟩

/-- The chunks of a streamed message, as FEED commands, have their payloads. -/
theorem framed_feed (cid : Nat) (bs : List Byte) : Framed (.feed cid bs.length, packWords bs) := packWords_length bs

/-- After a FEED, of no byte or of some, a slot takes the next one. -/
theorem fresh_or_absorbing_ite (empty : Prop) [Decidable empty] {ph : Phase} (hph : ph = .fresh ∨ ph = .absorbing) :
    (if empty then ph else .absorbing) = .fresh ∨ (if empty then ph else .absorbing) = .absorbing := by
  split
  · exact hph
  · exact .inr rfl

/-- Feeding chunks leaves the slot of absorbing their concatenation, ABSORBING if there is a byte in it. -/
theorem issueAll_feedCommands (cid : Nat) {s : State} {sl : Slot} (chunks : List (List Byte))
    (hs : s.slots[cid]? = some sl) (hph : sl.ph = .fresh ∨ sl.ph = .absorbing) :
    (issueAll (feedCommands cid chunks) s).slots[cid]? =
      some { absorbAll cid sl chunks.flatten with ph := if chunks.flatten = [] then sl.ph else .absorbing } := by
  induction chunks generalizing s sl with
  | nil => exact hs
  | cons bs chunks ih =>
    obtain ⟨p, hp⟩ := phaseTable_feed hph cid bs.length
    obtain ⟨hslot, -⟩ := issue_accepted (framed_feed cid bs) hs hp
    rw [resultSlot, span_packWords, feedSlot_eq] at hslot
    rw [feedCommands, List.map_cons, issueAll]
    refine (ih hslot (fresh_or_absorbing_ite _ hph)).trans ?_
    rw [absorbAll_withPh, List.flatten_cons, absorbAll_append]
    cases bs with
    | nil => rfl
    | cons b bs => simp

/-- Settles O40, by induction on the chunks. -/
theorem chunkingIsInvisible : Obligations.ChunkingIsInvisible := fun cid _ _ chunks hs hph =>
  issueAll_feedCommands cid chunks hs hph

/-! ## Streaming and DIGEST (R182) -/

/-- FINAL on a slot that holds a message answers the words of its reference digest. -/
theorem answer_final {cid : Nat} {s : State} {sl : Slot} {msg : List Byte} (hs : s.slots[cid]? = some sl)
    (hph : sl.ph = .fresh ∨ sl.ph = .absorbing) (hr : Represents sl msg) :
    ∃ st, answer (.final cid) [] s = st :: digestWords (md5 msg) := by
  obtain ⟨-, st, h⟩ := issue_accepted (i := .final cid) (ws := []) rfl hs (phaseTable_final hph cid)
  rw [resultDigest, hr.finalizeSlot_h] at h
  exact ⟨st, h⟩

/-- DIGEST answers the words of the reference digest of its span. -/
theorem answer_digest {cid : Nat} {s : State} {sl : Slot} (hs : s.slots[cid]? = some sl) (bs : List Byte) :
    ∃ st, answer (.digest cid bs.length) (packWords bs) s = st :: digestWords (md5 bs) := by
  obtain ⟨-, st, h⟩ := issue_accepted (i := .digest cid bs.length) (packWords_length bs) hs rfl
  rw [resultDigest, span_packWords, digestSlot_h] at h
  exact ⟨st, h⟩

/-- INIT and then chunks leave a slot that takes FINAL and holds the concatenation. -/
theorem streamed_represents {cid : Nat} {s : State} {sl : Slot} (hs : s.slots[cid]? = some sl) (chunks : List (List Byte)) :
    ∃ r, (issueAll ((.init cid, []) :: feedCommands cid chunks) s).slots[cid]? = some r ∧
      (r.ph = .fresh ∨ r.ph = .absorbing) ∧ Represents r chunks.flatten := by
  obtain ⟨hfresh, -⟩ := issue_accepted (i := .init cid) (ws := []) rfl hs rfl
  exact ⟨_, issueAll_feedCommands cid chunks hfresh (.inl rfl), fresh_or_absorbing_ite _ (.inl rfl),
    (represents_createContext sl).absorbAll cid chunks.flatten⟩

/-- Settles O39: both answers are a status word and the reference digest of the span. -/
theorem digestEqualsStreaming : Obligations.DigestEqualsStreaming := by
  intro cid s bs chunks hcid _ hchunks
  have hs := List.getElem?_eq_getElem (l := s.slots) hcid
  obtain ⟨r, hslot, hph, hr⟩ := streamed_represents hs chunks
  rw [hchunks] at hr
  obtain ⟨st, hdigest⟩ := answer_digest hs bs
  obtain ⟨st', hfinal⟩ := answer_final hslot hph hr
  rw [hdigest, hfinal]
  exact ⟨rfl, rfl⟩

end Sys2Proof.Machine
end

section
/-!
The compression function as a whole (40_compression R108, R111, R112): its published form, and the vectors of 95_test_vectors.
-/

namespace Sys2Proof.Machine

/-! ## The published form (R108) -/

/-- Four rounds in a row are one group of the published form, in which each register is written once. -/
theorem roundStep_group (x : List Word) (r : Regs) (g : Nat) :
    roundStep x (roundStep x (roundStep x (roundStep x r (4 * g)) (4 * g + 1)) (4 * g + 2)) (4 * g + 3) =
      publishedGroup x r g := by
  have swap (a m k w : Word) : a + m + k + w = a + m + w + k := by
    rw [BitVec.add_assoc (a + m), BitVec.add_comm k, ← BitVec.add_assoc]
  simp only [roundStep, publishedGroup, swap _ _ (kTab.getD _ 0)]

/-- One round more. -/
theorem rounds_succ (x : List Word) (n : Nat) (r : Regs) : rounds x (n + 1) r = roundStep x (rounds x n r) n := by
  simp [rounds, List.range_succ]

/-- The first `4n` rounds are the first `n` groups. -/
theorem rounds_eq_groups (x : List Word) (n : Nat) (r : Regs) :
    rounds x (4 * n) r = (List.range n).foldl (publishedGroup x) r := by
  induction n with
  | zero => rfl
  | succ n ih =>
    rw [List.range_succ, List.foldl_append, ← ih, Nat.mul_succ, rounds_succ, rounds_succ, rounds_succ, rounds_succ]
    exact roundStep_group x _ n

/-- Settles O19: the 64 rounds are the 16 groups. -/
theorem roundsEqualThePublishedForm : Obligations.RoundsEqualThePublishedForm := by
  intro h blk r
  have hrounds : rounds (msgWords blk) 64 ⟨h.h0, h.h1, h.h2, h.h3⟩ = r := rounds_eq_groups (msgWords blk) 16 _
  unfold compress
  rw [hrounds]

/-! ## The vectors -/

/-- Settles O21: the kernel evaluates the five compressions. -/
theorem compressAgreesWithTheVectors : Obligations.CompressAgreesWithTheVectors := by
  unfold Obligations.CompressAgreesWithTheVectors; decide +kernel

/-- Settles O22: the kernel evaluates the three digests, of one block each. -/
theorem referenceDigestIsThePublishedOne : Obligations.ReferenceDigestIsThePublishedOne := by
  unfold Obligations.ReferenceDigestIsThePublishedOne; decide +kernel

end Sys2Proof.Machine
end
